-- ==== Sys2Proof/Word.lean ====
section
/-! DEFINITION. The word types of the machine (spec/10_state.md R20, spec/30_encoding.md R72).
Every value is unsigned (spec/00_scope.md R10). -/

namespace Sys2Proof

/-- A general register, a timer or a byte of memory: 8 bits. -/
abbrev Byte := BitVec 8

/-- An instruction word, `I`, `pc` or a slot of the call stack: 16 bits. -/
abbrev Word := BitVec 16

/-- A nibble of an instruction word: the number of a general register (`x`, `y`), a row count (`n`),
or four bits the decoder does not examine (spec/30_encoding.md R72, R75). -/
abbrev Nibble := BitVec 4

/-- The field `nnn` of an instruction word: a 12-bit absolute address. -/
abbrev Addr := BitVec 12

end Sys2Proof
end

