-- ==== Sys2Proof/Syntax.lean ====
section
/-! DEFINITION. The instructions: one constructor per row of spec/opcode_table.json
(spec/30_encoding.md R76), its arguments the fields of the word, from the high bits to the low ones.

Every field carries its range in its type, so every term is an instruction. The bits a row does not
examine (spec/30_encoding.md R75: `w[11:8]` of CLS and RET, `w[3:0]` of SE Vx,Vy and SNE Vx,Vy) and
the unused `y` of SHR and SHL (R108, R110) are kept as fields too: no meaning reads them, and the word
that a diagnostic records (spec/60_exceptions.md R170) is then the fetched word, whichever it was. -/

namespace Sys2Proof

inductive Instr where
  /-- `0?E0` CLS -/
  | cls (ignored : Nibble)
  /-- `0?EE` RET -/
  | ret (ignored : Nibble)
  /-- `1nnn` JP nnn -/
  | jp (nnn : Addr)
  /-- `2nnn` CALL nnn -/
  | call (nnn : Addr)
  /-- `3xkk` SE Vx,kk -/
  | seVxKk (x : Nibble) (kk : Byte)
  /-- `4xkk` SNE Vx,kk -/
  | sneVxKk (x : Nibble) (kk : Byte)
  /-- `5xy?` SE Vx,Vy -/
  | seVxVy (x y ignored : Nibble)
  /-- `6xkk` LD Vx,kk -/
  | ldVxKk (x : Nibble) (kk : Byte)
  /-- `7xkk` ADD Vx,kk -/
  | addVxKk (x : Nibble) (kk : Byte)
  /-- `8xy0` LD Vx,Vy -/
  | ldVxVy (x y : Nibble)
  /-- `8xy1` OR Vx,Vy -/
  | orVxVy (x y : Nibble)
  /-- `8xy2` AND Vx,Vy -/
  | andVxVy (x y : Nibble)
  /-- `8xy3` XOR Vx,Vy -/
  | xorVxVy (x y : Nibble)
  /-- `8xy4` ADD Vx,Vy -/
  | addVxVy (x y : Nibble)
  /-- `8xy5` SUB Vx,Vy -/
  | subVxVy (x y : Nibble)
  /-- `8xy6` SHR Vx (`y` unused) -/
  | shrVx (x y : Nibble)
  /-- `8xy7` SUBN Vx,Vy -/
  | subnVxVy (x y : Nibble)
  /-- `8xyE` SHL Vx (`y` unused) -/
  | shlVx (x y : Nibble)
  /-- `9xy?` SNE Vx,Vy -/
  | sneVxVy (x y ignored : Nibble)
  /-- `Annn` LD I,nnn -/
  | ldINnn (nnn : Addr)
  /-- `Bnnn` JP V0,nnn -/
  | jpV0Nnn (nnn : Addr)
  /-- `Cxkk` RND Vx,kk -/
  | rndVxKk (x : Nibble) (kk : Byte)
  /-- `Dxyn` DRW Vx,Vy,n -/
  | drwVxVyN (x y n : Nibble)
  /-- `Ex9E` SKP Vx -/
  | skpVx (x : Nibble)
  /-- `ExA1` SKNP Vx -/
  | sknpVx (x : Nibble)
  /-- `Fx07` LD Vx,DT -/
  | ldVxDt (x : Nibble)
  /-- `Fx0A` LD Vx,K (key-wait) -/
  | ldVxK (x : Nibble)
  /-- `Fx15` LD DT,Vx -/
  | ldDtVx (x : Nibble)
  /-- `Fx18` LD ST,Vx -/
  | ldStVx (x : Nibble)
  /-- `Fx1E` ADD I,Vx -/
  | addIVx (x : Nibble)
  /-- `Fx29` LD F,Vx -/
  | ldFVx (x : Nibble)
  /-- `Fx33` LD B,Vx -/
  | ldBVx (x : Nibble)
  /-- `Fx55` LD [I],Vx -/
  | ldMemVx (x : Nibble)
  /-- `Fx65` LD Vx,[I] -/
  | ldVxMem (x : Nibble)
  deriving DecidableEq, Repr

end Sys2Proof
end

