-- ==== Sys2Proof/WellFormed.lean ====
section
/-! DEFINITION. The checks on what is handed to the machine.

A term of `Instr` needs none: its fields carry their ranges (spec/30_encoding.md R72), so every term
is well formed and every statement about instructions is for every term. What remains to check is
the program image the host loads, and whether a spelling is the canonical one. -/

namespace Sys2Proof

/-- The longest image the loader takes: `4096 - 512` bytes (spec/70_reset_and_hazards.md R202). -/
def Image.maxBytes : Nat := 3584

/-- The check of the loader on a program image; a longer one is refused
(spec/70_reset_and_hazards.md R202, decision D26). -/
def Image.wellFormed (image : List Byte) : Bool :=
  decide (image.length ≤ Image.maxBytes)

/-- Is this the canonical spelling (spec/30_encoding.md R75): the bits that the decoder does not
examine are 0? The machine runs every spelling alike; only an assembler cares. -/
def Instr.canonical : Instr → Bool
  | .cls ign => ign == 0
  | .ret ign => ign == 0
  | .seVxVy _ _ ign => ign == 0
  | .sneVxVy _ _ ign => ign == 0
  | .jp _ | .call _ | .seVxKk _ _ | .sneVxKk _ _ | .ldVxKk _ _ | .addVxKk _ _ => true
  | .ldVxVy _ _ | .orVxVy _ _ | .andVxVy _ _ | .xorVxVy _ _ | .addVxVy _ _ | .subVxVy _ _ => true
  | .shrVx _ _ | .subnVxVy _ _ | .shlVx _ _ | .ldINnn _ | .jpV0Nnn _ | .rndVxKk _ _ => true
  | .drwVxVyN _ _ _ | .skpVx _ | .sknpVx _ | .ldVxDt _ | .ldVxK _ | .ldDtVx _ | .ldStVx _ => true
  | .addIVx _ | .ldFVx _ | .ldBVx _ | .ldMemVx _ | .ldVxMem _ => true

end Sys2Proof
end

