-- ==== Sys2Proof/Decode.lean ====
section
/-! DEFINITION. The decoder (spec/30_encoding.md R70 to R79), total on every 16-bit word and refusing
a word by the name of its family, and the encoder, written from the same layouts (R71). -/

namespace Sys2Proof

/-- The unrecognised words, by family (spec/30_encoding.md R77). The machine does not stop on one:
step runs the rule of an unrecognised word (spec/40_step_cycle.md R94). -/
inductive Unrecognised where
  /-- family `0x0`: the low byte is neither `0xE0` nor `0xEE` (`0x0000` and `SYS nnn` among them) -/
  | family0
  /-- family `0x8`: the low nibble is not `0`..`7` and not `0xE` -/
  | family8
  /-- family `0xE`: the low byte is neither `0x9E` nor `0xA1` -/
  | familyE
  /-- family `0xF`: the low byte is none of the nine of R74 -/
  | familyF
  deriving DecidableEq, Repr

/-- `w[15:12]`, the family (spec/30_encoding.md R72). -/
def opField (w : Word) : Nibble := w.extractLsb' 12 4

/-- `w[11:8]`, the field `x`. -/
def xField (w : Word) : Nibble := w.extractLsb' 8 4

/-- `w[7:4]`, the field `y`. -/
def yField (w : Word) : Nibble := w.extractLsb' 4 4

/-- `w[3:0]`, the field `n`. -/
def nField (w : Word) : Nibble := w.extractLsb' 0 4

/-- `w[7:0]`, the field `kk`. -/
def kkField (w : Word) : Byte := w.extractLsb' 0 8

/-- `w[11:0]`, the field `nnn`. -/
def nnnField (w : Word) : Addr := w.extractLsb' 0 12

/-- Second dispatch of family `0x0`, on the low byte; `w[11:8]` is not examined (R74, R75). -/
def decodeFamily0 (w : Word) : Except Unrecognised Instr :=
  match (kkField w).toNat with
  | 0xE0 => .ok (.cls (xField w))
  | 0xEE => .ok (.ret (xField w))
  | _ => .error .family0

/-- Second dispatch of family `0x8`, on the low nibble (R74). -/
def decodeFamily8 (w : Word) : Except Unrecognised Instr :=
  match (nField w).toNat with
  | 0x0 => .ok (.ldVxVy (xField w) (yField w))
  | 0x1 => .ok (.orVxVy (xField w) (yField w))
  | 0x2 => .ok (.andVxVy (xField w) (yField w))
  | 0x3 => .ok (.xorVxVy (xField w) (yField w))
  | 0x4 => .ok (.addVxVy (xField w) (yField w))
  | 0x5 => .ok (.subVxVy (xField w) (yField w))
  | 0x6 => .ok (.shrVx (xField w) (yField w))
  | 0x7 => .ok (.subnVxVy (xField w) (yField w))
  | 0xE => .ok (.shlVx (xField w) (yField w))
  | _ => .error .family8

/-- Second dispatch of family `0xE`, on the low byte (R74). -/
def decodeFamilyE (w : Word) : Except Unrecognised Instr :=
  match (kkField w).toNat with
  | 0x9E => .ok (.skpVx (xField w))
  | 0xA1 => .ok (.sknpVx (xField w))
  | _ => .error .familyE

/-- Second dispatch of family `0xF`, on the low byte (R74). -/
def decodeFamilyF (w : Word) : Except Unrecognised Instr :=
  match (kkField w).toNat with
  | 0x07 => .ok (.ldVxDt (xField w))
  | 0x0A => .ok (.ldVxK (xField w))
  | 0x15 => .ok (.ldDtVx (xField w))
  | 0x18 => .ok (.ldStVx (xField w))
  | 0x1E => .ok (.addIVx (xField w))
  | 0x29 => .ok (.ldFVx (xField w))
  | 0x33 => .ok (.ldBVx (xField w))
  | 0x55 => .ok (.ldMemVx (xField w))
  | 0x65 => .ok (.ldVxMem (xField w))
  | _ => .error .familyF

/-- The decoder: the family nibble first (R74). It reads nothing but the word (R79). -/
def decode (w : Word) : Except Unrecognised Instr :=
  match (opField w).toNat with
  | 0x0 => decodeFamily0 w
  | 0x1 => .ok (.jp (nnnField w))
  | 0x2 => .ok (.call (nnnField w))
  | 0x3 => .ok (.seVxKk (xField w) (kkField w))
  | 0x4 => .ok (.sneVxKk (xField w) (kkField w))
  | 0x5 => .ok (.seVxVy (xField w) (yField w) (nField w))
  | 0x6 => .ok (.ldVxKk (xField w) (kkField w))
  | 0x7 => .ok (.addVxKk (xField w) (kkField w))
  | 0x8 => decodeFamily8 w
  | 0x9 => .ok (.sneVxVy (xField w) (yField w) (nField w))
  | 0xA => .ok (.ldINnn (nnnField w))
  | 0xB => .ok (.jpV0Nnn (nnnField w))
  | 0xC => .ok (.rndVxKk (xField w) (kkField w))
  | 0xD => .ok (.drwVxVyN (xField w) (yField w) (nField w))
  | 0xE => decodeFamilyE w
  | _ => decodeFamilyF w

/-- The instruction word of two bytes, the first the one at the lower address: big-endian
(spec/20_memory.md R54, spec/40_step_cycle.md R91). -/
def wordOfBytes (hi lo : Byte) : Word := hi ++ lo

/-- The byte of a word that stands at the lower address, `w[15:8]` (R54). -/
def highByte (w : Word) : Byte := w.extractLsb' 8 8

/-- The byte of a word that stands at the higher address, `w[7:0]` (R54). -/
def lowByte (w : Word) : Byte := w.extractLsb' 0 8

/-- The decoder on the two bytes as memory holds them. -/
def decodeBytes (hi lo : Byte) : Except Unrecognised Instr := decode (wordOfBytes hi lo)

/-- A word of layout `NNN` (R71). -/
def packNnn (op : Nibble) (nnn : Addr) : Word := op ++ nnn

/-- A word of layout `XKK` or `XB` (R71): in `XB` the low byte is the sub-opcode. -/
def packXkk (op x : Nibble) (kk : Byte) : Word := (op ++ x : Byte) ++ kk

/-- A word of layout `XY`, `XYS` or `XYN` (R71). -/
def packXyn (op x y n : Nibble) : Word := (op ++ x : Byte) ++ (y ++ n : Byte)

/-- The encoder: the word of an instruction, from the layouts of R71 and the opcode map R76. -/
def encode : Instr → Word
  | .cls ign => packXkk 0x0 ign 0xE0
  | .ret ign => packXkk 0x0 ign 0xEE
  | .jp nnn => packNnn 0x1 nnn
  | .call nnn => packNnn 0x2 nnn
  | .seVxKk x kk => packXkk 0x3 x kk
  | .sneVxKk x kk => packXkk 0x4 x kk
  | .seVxVy x y ign => packXyn 0x5 x y ign
  | .ldVxKk x kk => packXkk 0x6 x kk
  | .addVxKk x kk => packXkk 0x7 x kk
  | .ldVxVy x y => packXyn 0x8 x y 0x0
  | .orVxVy x y => packXyn 0x8 x y 0x1
  | .andVxVy x y => packXyn 0x8 x y 0x2
  | .xorVxVy x y => packXyn 0x8 x y 0x3
  | .addVxVy x y => packXyn 0x8 x y 0x4
  | .subVxVy x y => packXyn 0x8 x y 0x5
  | .shrVx x y => packXyn 0x8 x y 0x6
  | .subnVxVy x y => packXyn 0x8 x y 0x7
  | .shlVx x y => packXyn 0x8 x y 0xE
  | .sneVxVy x y ign => packXyn 0x9 x y ign
  | .ldINnn nnn => packNnn 0xA nnn
  | .jpV0Nnn nnn => packNnn 0xB nnn
  | .rndVxKk x kk => packXkk 0xC x kk
  | .drwVxVyN x y n => packXyn 0xD x y n
  | .skpVx x => packXkk 0xE x 0x9E
  | .sknpVx x => packXkk 0xE x 0xA1
  | .ldVxDt x => packXkk 0xF x 0x07
  | .ldVxK x => packXkk 0xF x 0x0A
  | .ldDtVx x => packXkk 0xF x 0x15
  | .ldStVx x => packXkk 0xF x 0x18
  | .addIVx x => packXkk 0xF x 0x1E
  | .ldFVx x => packXkk 0xF x 0x29
  | .ldBVx x => packXkk 0xF x 0x33
  | .ldMemVx x => packXkk 0xF x 0x55
  | .ldVxMem x => packXkk 0xF x 0x65

/-- The column `mask` of the opcode map for the instruction's row (R76). -/
def opcodeMask : Instr → Word
  | .cls _ | .ret _ => 0xF0FF
  | .jp _ | .call _ | .seVxKk _ _ | .sneVxKk _ _ | .seVxVy _ _ _ | .ldVxKk _ _ | .addVxKk _ _ => 0xF000
  | .ldVxVy _ _ | .orVxVy _ _ | .andVxVy _ _ | .xorVxVy _ _ | .addVxVy _ _ => 0xF00F
  | .subVxVy _ _ | .shrVx _ _ | .subnVxVy _ _ | .shlVx _ _ => 0xF00F
  | .sneVxVy _ _ _ | .ldINnn _ | .jpV0Nnn _ | .rndVxKk _ _ | .drwVxVyN _ _ _ => 0xF000
  | .skpVx _ | .sknpVx _ | .ldVxDt _ | .ldVxK _ | .ldDtVx _ | .ldStVx _ => 0xF0FF
  | .addIVx _ | .ldFVx _ | .ldBVx _ | .ldMemVx _ | .ldVxMem _ => 0xF0FF

/-- The column `match` of the opcode map for the instruction's row (R76). No two rows have one
value, so it names the row. -/
def opcodeMatch : Instr → Word
  | .cls _ => 0x00E0
  | .ret _ => 0x00EE
  | .jp _ => 0x1000
  | .call _ => 0x2000
  | .seVxKk _ _ => 0x3000
  | .sneVxKk _ _ => 0x4000
  | .seVxVy _ _ _ => 0x5000
  | .ldVxKk _ _ => 0x6000
  | .addVxKk _ _ => 0x7000
  | .ldVxVy _ _ => 0x8000
  | .orVxVy _ _ => 0x8001
  | .andVxVy _ _ => 0x8002
  | .xorVxVy _ _ => 0x8003
  | .addVxVy _ _ => 0x8004
  | .subVxVy _ _ => 0x8005
  | .shrVx _ _ => 0x8006
  | .subnVxVy _ _ => 0x8007
  | .shlVx _ _ => 0x800E
  | .sneVxVy _ _ _ => 0x9000
  | .ldINnn _ => 0xA000
  | .jpV0Nnn _ => 0xB000
  | .rndVxKk _ _ => 0xC000
  | .drwVxVyN _ _ _ => 0xD000
  | .skpVx _ => 0xE09E
  | .sknpVx _ => 0xE0A1
  | .ldVxDt _ => 0xF007
  | .ldVxK _ => 0xF00A
  | .ldDtVx _ => 0xF015
  | .ldStVx _ => 0xF018
  | .addIVx _ => 0xF01E
  | .ldFVx _ => 0xF029
  | .ldBVx _ => 0xF033
  | .ldMemVx _ => 0xF055
  | .ldVxMem _ => 0xF065

/-- The instruction the decoder reads from a word of the opcode table's numbering: one 16-bit word,
the bits above `nbits` zero, laid out in memory order and given to the decoder as bytes. -/
def decodeTableWord (nbits w : Nat) : Option Instr :=
  let word : Word := BitVec.ofNat 16 (w % 2 ^ nbits)
  (decodeBytes (highByte word) (lowByte word)).toOption

end Sys2Proof
end

