-- ==== Sys2Proof/Config.lean ====
section
/-! DEFINITION. What is fixed for one machine and open in the spec (spec/00_scope.md R8): the random
draws and the kinds of key-wait. The values the spec states (the default font, the default key-wait
mode, the entry point) are in Sys2Proof/Machine/Params.lean. -/

namespace Sys2Proof

/-- The input `rnd` of step number `k`, a byte under no law (spec/10_state.md R21, decision D13,
spec/93_implementation_defined.md U9). A FREE VALUE: it has no body, so a statement about it holds
whatever bytes the host supplies. DESIGN CHOICE, assumption log 2. -/
opaque Config.rnd : Nat → Byte

/-- What the key-wait instruction `Fx0A` does: the two values of the parameter `KEY_WAIT_MODE`
(spec/00_scope.md R8, spec/44_timer_memory_bcd.md R152). -/
inductive KeyWaitMode where
  /-- the source's current design: a no-op that emits `UnimplementedOpcode` -/
  | noop
  /-- the source's sketched fix: wait until a key is pressed -/
  | wait
  deriving DecidableEq, Repr

end Sys2Proof
end

