-- ==== Sys2Proof/Machine/Params.lean ====
section
/-! DEFINITION. The values the spec states for its parameters and fixed sizes (spec/00_scope.md R7,
R8): the default font, the default key-wait mode, the entry point and the reset contents of memory. -/

namespace Sys2Proof.Machine

/-- `MEM_SIZE`: bytes of memory (spec/00_scope.md R7). -/
def memSize : Nat := 4096

/-- `PROG_BASE`: the reset value of `pc` and the load address (spec/00_scope.md R7). -/
def progBase : Word := 0x200

/-- The 80 bytes of the spec's default table, glyph by glyph
(spec/10_state.md R37, decision D16). PRESUMED: the spec takes it from general knowledge; assumption
log 4. -/
def fontTable : List Byte :=
  [0xF0, 0x90, 0x90, 0x90, 0xF0] ++ [0x20, 0x60, 0x20, 0x20, 0x70] ++
  [0xF0, 0x10, 0xF0, 0x80, 0xF0] ++ [0xF0, 0x10, 0xF0, 0x10, 0xF0] ++
  [0x90, 0x90, 0xF0, 0x10, 0x10] ++ [0xF0, 0x80, 0xF0, 0x10, 0xF0] ++
  [0xF0, 0x80, 0xF0, 0x90, 0xF0] ++ [0xF0, 0x10, 0x20, 0x40, 0x40] ++
  [0xF0, 0x90, 0xF0, 0x90, 0xF0] ++ [0xF0, 0x90, 0xF0, 0x10, 0xF0] ++
  [0xF0, 0x90, 0xF0, 0x90, 0x90] ++ [0xE0, 0x90, 0xE0, 0x90, 0xE0] ++
  [0xF0, 0x80, 0x80, 0x80, 0xF0] ++ [0xE0, 0x90, 0x90, 0x90, 0xE0] ++
  [0xF0, 0x80, 0xF0, 0x80, 0xF0] ++ [0xF0, 0x80, 0xF0, 0x80, 0x80]

/-- A value of the parameter `FONT`: the bytes of the glyph table at addresses 0..79 (spec/10_state.md R37,
spec/00_scope.md R8). -/
abbrev Font := Vector Byte 80

/-- The spec's default of the parameter `FONT`. -/
def defaultFont : Font := ⟨fontTable.toArray, by decide⟩

/-- What a byte of memory holds after a reset with a font: the font in 0..79 and 0 elsewhere
(spec/10_state.md R37, R39). -/
def initialByte (font : Font) (a : Nat) : Byte := font.toList.getD a 0

/-- What an address that memory does not list reads as: the reset contents with the default font. With
another font (`State.resetWith`) the bytes that differ from it are listed (assumption log 5). -/
def resetByte (a : Nat) : Byte := initialByte defaultFont a

/-- The parameter `KEY_WAIT_MODE`: the spec's default (spec/00_scope.md R8, decision D5). DESIGN
CHOICE, assumption log 3. -/
def keyWaitMode : KeyWaitMode := .noop

end Sys2Proof.Machine
end

