-- ==== Sys2Proof/Machine/State.lean ====
section
/-! DEFINITION. The state of the machine (spec/10_state.md R20, R40), the outputs of its last step
(R21), its reset value (R39), and the reasons a step or a load can stop. -/

namespace Sys2Proof.Machine

/-- Memory: the bytes that differ from the reset contents, by rising address (assumption log 5). -/
abbrev Memory := List Host.Cell

/-- The framebuffer: 32 rows of 64 one-bit pixels, 1 lit and 0 unlit; pixel `FB[row*64+col]` is bit `col` of
row `row` (spec/10_state.md R34, assumption log 27). -/
abbrev Framebuffer := Vector (BitVec 64) 32

/-- The kinds of diagnostic (spec/60_exceptions.md R170). -/
inductive DiagKind where
  /-- a word of the unrecognised space (spec/40_step_cycle.md R94) -/
  | unrecognizedOpcode
  /-- `Fx0A` with `KEY_WAIT_MODE = noop` (spec/44_timer_memory_bcd.md R152) -/
  | unimplementedOpcode
  /-- `CALL` with `SP = 16` (spec/42_control_flow.md R122) -/
  | stackOverflow
  /-- `RET` with `SP = 0` (spec/42_control_flow.md R123) -/
  | stackUnderflow
  deriving DecidableEq, Repr

/-- A diagnostic record: its kind, the instruction word and the address the word was fetched from
(spec/60_exceptions.md R170, decision D20). -/
structure Diag where
  kind : DiagKind
  word : Word
  addr : Word
  deriving DecidableEq, Repr

/-- The machine. The first twelve fields are the spec's state (spec/10_state.md R20, and `WAIT` of
R40); `beep` and `diag` are the outputs of the step just done (R21, assumption log 1); `stepNo` is the
model's own, the number of steps done (assumption log 2). -/
structure State where
  /-- `MEM` -/
  mem : Memory
  /-- `V[0]`..`V[15]` -/
  v : Vector Byte 16
  /-- `I` -/
  index : Word
  /-- `pc`: between steps the address of the next instruction, during execute that plus 2 (R29) -/
  pc : Word
  /-- `STACK[0]`..`STACK[15]` -/
  stack : Vector Word 16
  /-- `SP`: the number of slots in use, 0..16 (R32) -/
  sp : Fin 17
  /-- `FB` -/
  fb : Framebuffer
  /-- `DT` -/
  dt : Byte
  /-- `ST` -/
  st : Byte
  /-- `KEY`: bit `k` is 1 while key `k` is pressed; written by the host only (R36) -/
  key : BitVec 16
  /-- `RP`, the redraw-pending flag -/
  rp : Bool
  /-- `WAIT`: the register that a key-wait is to fill, if one is under way (R40) -/
  wait : Option Nibble
  /-- the output `beep` of the step just done (R21) -/
  beep : Bool
  /-- the output `diag` of the step just done (R21) -/
  diag : Option Diag
  /-- the number of steps done: selects the draw `rnd` of the next step -/
  stepNo : Nat
  deriving DecidableEq, Repr

/-- The reasons a step can end in a fault: none. "No error is ever fatal to the running session"
(spec/30_encoding.md R78); a step always completes (spec/40_step_cycle.md R90). -/
inductive Fault where
  deriving DecidableEq, Repr

/-- The reasons an action can be refused. No step is ever refused. -/
inductive Refusal where
  /-- Raised by an arm of `exec` for an instruction that has no meaning yet: no arm does. Safe: the
  model stops where the hardware goes on. -/
  | notModelled (mnemonic : String)
  /-- Raised by the host's `load` (`State.load`) for an image longer than 3584 bytes, which the spec's
  loader interface refuses (spec/70_reset_and_hazards.md R202). Safe: nothing is loaded. -/
  | imageTooLong
  deriving DecidableEq, Repr

/-- What executing an instruction answers. -/
abbrev Result := Host.Outcome State Fault Refusal

/-- The state after reset (spec/10_state.md R39, spec/70_reset_and_hazards.md R200, R201): memory holds
its reset contents with the default font (`State.resetWith` takes any, assumption log 4), `pc` is 0x200,
everything else is zero, unlit, unpressed or none. The values of
`I`, `SP`, `KEY`, `RP` and `WAIT` are the spec's own choice (decision D17, assumption log 16); those of
the last three fields are the model's (assumption logs 1 and 2). -/
def State.reset : State where
  mem := []
  v := Vector.replicate 16 0
  index := 0
  pc := progBase
  stack := Vector.replicate 16 0
  sp := 0
  fb := Vector.replicate 32 0
  dt := 0
  st := 0
  key := 0
  rp := false
  wait := none
  beep := false
  diag := none
  stepNo := 0

end Sys2Proof.Machine
end

