-- ==== Sys2Proof/Machine/Ops.lean ====
section
/-! DEFINITION. The named operations over memory, the registers and the call stack, the diagnostic
output, and the phases of a step (spec/20_memory.md, spec/40_step_cycle.md, spec/60_exceptions.md).

The machine has no exception entry and no return from one (spec/60_exceptions.md R174, R176); the one
operation every diagnostic goes through is `State.emitDiag`. -/

namespace Sys2Proof.Machine

/-! ### Memory -/

/-- The memory port keeps bits 11:0 of an address (spec/20_memory.md R55). DESIGN CHOICE of the spec,
assumption log 6. -/
def portAddr (addr : Nat) : Nat := addr % memSize

/-- The byte listed at a port address, or its reset contents. -/
def Memory.lookup : Memory → Nat → Byte
  | [], a => resetByte a
  | (b, v) :: rest, a => if b = a then v else Memory.lookup rest a

/-- `MemRead(addr, 1)` (spec/20_memory.md R56). -/
def Memory.read (m : Memory) (addr : Nat) : Byte := Memory.lookup m (portAddr addr)

/-- Insert a cell before the first one of a higher address. -/
def Memory.place : Memory → Nat → Byte → Memory
  | [], a, v => [(a, v)]
  | (b, u) :: rest, a, v => if a < b then (a, v) :: (b, u) :: rest else (b, u) :: Memory.place rest a v

/-- Drop what is listed at a port address. -/
def Memory.erase (m : Memory) (a : Nat) : Memory := m.filter (fun c => c.1 != a)

/-- `MemWrite(addr, 1, v)` (spec/20_memory.md R57). A byte that gets its reset contents is not listed. -/
def Memory.write (m : Memory) (addr : Nat) (v : Byte) : Memory :=
  if v = resetByte (portAddr addr) then Memory.erase m (portAddr addr)
  else Memory.place (Memory.erase m (portAddr addr)) (portAddr addr) v

/-- Bytes read at `addr`, `addr + 1`, ..., each address reduced on its own (R55). -/
def Memory.readBytes (m : Memory) (addr n : Nat) : List Byte :=
  (List.range n).map (fun k => Memory.read m (addr + k))

/-- Bytes written at `addr`, `addr + 1`, ..., in this order, each address reduced on its own (R55). -/
def Memory.writeBytes (m : Memory) (addr : Nat) : List Byte → Memory
  | [] => m
  | b :: bs => Memory.writeBytes (Memory.write m addr b) (addr + 1) bs

/-- Addresses rise strictly from `lo`, none is outside memory, and no cell repeats the reset contents. -/
def Memory.wfFrom (lo : Nat) : Memory → Bool
  | [] => true
  | (a, v) :: rest => decide (lo ≤ a) && decide (a < memSize) && v != resetByte a && Memory.wfFrom (a + 1) rest

/-- The canonical form of memory: equal memories are equal lists (assumption log 5). -/
def Memory.wf (m : Memory) : Bool := Memory.wfFrom 0 m

/-! ### General registers -/

/-- Read `V[i]` (spec/10_state.md R22). -/
def State.reg (s : State) (i : Nibble) : Byte := s.v[i.toNat]'(i.isLt)

/-- `V[i] <- b` (spec/10_state.md R22, R23). -/
def State.setReg (s : State) (i : Nibble) (b : Byte) : State := { s with v := s.v.set i.toNat b i.isLt }

/-- `V[k] <- b0`, `V[k+1] <- b1`, ... for the bytes of a list. -/
def State.setRegs (s : State) (k : Nat) : List Byte → State
  | [] => s
  | b :: bs => State.setRegs (State.setReg s (BitVec.ofNat 4 k) b) (k + 1) bs

/-- The values of `V[0]`..`V[x]`, ascending. -/
def State.regsUpTo (s : State) (x : Nibble) : List Byte :=
  (List.range (x.toNat + 1)).map (fun k => State.reg s (BitVec.ofNat 4 k))

/-! ### The call stack -/

/-- Push the advanced `pc` on a stack that is not full: the slot first, then `SP` (spec/10_state.md R32,
spec/42_control_flow.md R122). -/
def State.pushPc (s : State) (h : s.sp.val < 16) : State :=
  { s with stack := s.stack.set s.sp.val s.pc h, sp := ⟨s.sp.val + 1, by omega⟩ }

/-- Pop a stack that is not empty into `pc`: `SP` first, then the slot, which keeps its contents
(spec/10_state.md R32, spec/42_control_flow.md R123). -/
def State.popPc (s : State) (h : 0 < s.sp.val) : State :=
  { s with sp := ⟨s.sp.val - 1, by omega⟩, pc := s.stack[s.sp.val - 1]'(by omega) }

/-! ### Program counter and diagnostics -/

/-- `pc <- (pc + 2) mod 65536` (spec/40_step_cycle.md R92). -/
def State.advancePc (s : State) : State := { s with pc := s.pc + 2 }

/-- A skip adds 2 to the advanced `pc` when its condition holds (spec/42_control_flow.md R130). -/
def State.skipIf (s : State) (c : Bool) : State := if c then State.advancePc s else s

/-- `diag <- kind(word, addr = (pc - 2) mod 65536)`, in the execute phase (spec/60_exceptions.md R170). It
transfers control nowhere and saves nothing (R174). -/
def State.emitDiag (s : State) (kind : DiagKind) (word : Word) : State :=
  { s with diag := some { kind := kind, word := word, addr := s.pc - 2 } }

/-- The numeric code of a kind of diagnostic (spec/60_exceptions.md R170; decision D20). -/
def DiagKind.code : DiagKind → Nat
  | .unrecognizedOpcode => 1
  | .unimplementedOpcode => 2
  | .stackOverflow => 3
  | .stackUnderflow => 4

/-- The code of the output `diag` of a step: 0 for none (spec/60_exceptions.md R170). -/
def State.diagCode (s : State) : Nat :=
  match s.diag with
  | none => 0
  | some d => DiagKind.code d.kind

/-! ### The phases of a step (spec/40_step_cycle.md R90) -/

/-- Phase 0: `RP <- 0`, `diag <- none`, `beep <- 0` (decision D3, assumption log 17). -/
def State.beginStep (s : State) : State := { s with rp := false, diag := none, beep := false }

/-- Phase 1, fetch: the two bytes at `pc` and `pc + 1`, big-endian (spec/40_step_cycle.md R91). The sum
`pc + 1` is formed over the integers and then reduced by the port (spec/20_memory.md R55). -/
def State.fetchWord (s : State) : Word :=
  wordOfBytes (Memory.read s.mem s.pc.toNat) (Memory.read s.mem (s.pc.toNat + 1))

/-- The word stored at `pc`, high byte first (spec/20_memory.md R54), with no key-wait under way: the next
step fetches it. It stands for the host's load of a program at `pc` (assumption log 21). -/
def State.placeWord (s : State) (w : Word) : State :=
  { s with mem := Memory.writeBytes s.mem s.pc.toNat [highByte w, lowByte w], wait := none }

/-- One decrement of a timer that is not zero (spec/60_exceptions.md R180). -/
def countDown (t : Byte) : Byte := if t = 0 then 0 else t - 1

/-- Phase 5, the tick: `beep` looks at `ST` before its decrement (spec/60_exceptions.md R180, R182). -/
def State.tick (s : State) : State :=
  { s with dt := countDown s.dt, beep := s.st == 1, st := countDown s.st }

/-- The end of a step: the tick, and the model's count of steps, so that the next step has a draw of
its own (spec/70_reset_and_hazards.md R207). -/
def State.endStep (s : State) : State := { State.tick s with stepNo := s.stepNo + 1 }

/-- The end of a step after its execute phase. -/
def endStepAfter : Result → Result
  | .next s => .next (State.endStep s)
  | .fault r => .fault r
  | .refused r => .refused r

/-! ### Key-wait, in the mode `wait` (spec/44_timer_memory_bcd.md R152) -/

/-- The least `k` with `KEY[k] = 1`, if some key is pressed. -/
def lowestKey (key : BitVec 16) : Option Nibble :=
  ((List.range 16).find? (fun k => key.getLsbD k)).map (BitVec.ofNat 4)

/-- A step while `WAIT = r`, between its phase 0 and its tick: nothing is fetched; a pressed key is
stored in `V[r]` and ends the wait. -/
def State.pollKeys (s : State) (r : Nibble) : State :=
  match lowestKey s.key with
  | some k => { State.setReg s r (k.setWidth 8) with wait := none }
  | none => s

end Sys2Proof.Machine
end

