-- ==== Sys2Proof/Machine/Operands.lean ====
section
/-! DEFINITION. The operand forms: zero-extended fields, the key and the glyph a register selects, the
decimal digits of a byte, and the address of a data access (spec/30_encoding.md R73,
spec/44_timer_memory_bcd.md R160). -/

namespace Sys2Proof.Machine

/-- `zext_16(nnn)` (spec/30_encoding.md R73). -/
def zextAddr (nnn : Addr) : Word := nnn.setWidth 16

/-- `zext_16` of a byte (spec/00_scope.md R10). -/
def zextByte (b : Byte) : Word := b.setWidth 16

/-- `V[x] & 0x0F`, the low nibble of a register's value: the number of a key or of a glyph
(spec/42_control_flow.md R128, spec/44_timer_memory_bcd.md R156). -/
def lowNibble (b : Byte) : Nibble := b.setWidth 4

/-- `KEY[V[x] & 0x0F]` (spec/42_control_flow.md R128; decision D14, assumption log 13). -/
def State.keyPressed (s : State) (x : Nibble) : Bool := s.key.getLsbD (lowNibble (State.reg s x)).toNat

/-- The address of the glyph of a value's low nibble, `5 * (V[x] & 0x0F)` (spec/44_timer_memory_bcd.md
R156). -/
def glyphAddr (b : Byte) : Word := BitVec.ofNat 16 (5 * (lowNibble b).toNat)

/-- The three decimal digits of a byte, hundreds first (spec/44_timer_memory_bcd.md R157). -/
def bcdDigits (b : Byte) : List Byte :=
  [BitVec.ofNat 8 (b.toNat / 100), BitVec.ofNat 8 (b.toNat / 10 % 10), BitVec.ofNat 8 (b.toNat % 10)]

/-- The first address of every data access, `I`, as a number that offsets are added to before the port
reduces the sum (spec/20_memory.md R55, spec/44_timer_memory_bcd.md R160). -/
def State.dataAddr (s : State) : Nat := s.index.toNat

/-- The pixel of a row and a column, each reduced on its own (spec/43_draw.md R141). -/
def pixelIndex (row col : Nat) : Nat := row % 32 * 64 + col % 64

/-- The pixel `FB[p]`, `p` in 0..2047 (spec/10_state.md R34). -/
def fbPixel (fb : Framebuffer) (p : Nat) : Bool :=
  (fb[p / 64 % 32]'(Nat.mod_lt _ (by decide))).getLsbD (p % 64)

/-- `FB[p] <- FB[p] XOR 1` (spec/43_draw.md R142). -/
def fbToggle (fb : Framebuffer) (p : Nat) : Framebuffer :=
  fb.set (p / 64 % 32) (fb[p / 64 % 32]'(Nat.mod_lt _ (by decide)) ^^^ BitVec.twoPow 64 (p % 64))
    (Nat.mod_lt _ (by decide))

/-- The pixel `FB[p]` of a state. -/
def State.pixel (s : State) (p : Nat) : Bool := fbPixel s.fb p

end Sys2Proof.Machine
end

