-- ==== Sys2Proof/Machine/ControlFlow.lean ====
section
/-! DEFINITION. The control-flow instructions and the call-stack manager (spec/42_control_flow.md). In
the execute phase `pc` is the address of the instruction plus 2. -/

namespace Sys2Proof.Machine

/-- `1nnn` JP nnn (R120). -/
def execJp (nnn : Addr) (s : State) : Result := .next { s with pc := zextAddr nnn }

/-- `Bnnn` JP V0,nnn: the sum stays in 16 bits (R121; assumption log 25). -/
def execJpV0Nnn (nnn : Addr) (s : State) : Result :=
  .next { s with pc := zextAddr nnn + zextByte (State.reg s 0) }

/-- `2nnn` CALL nnn; on a full stack nothing happens but the diagnostic (R122; decision D6, assumption
log 7). -/
def execCall (nnn : Addr) (s : State) : Result :=
  if h : s.sp.val < 16 then .next { State.pushPc s h with pc := zextAddr nnn }
  else .next (State.emitDiag s .stackOverflow (encode (.call nnn)))

/-- `00EE` RET; on an empty stack nothing happens but the diagnostic (R123; decision D6, assumption
log 7). The four ignored bits of the word only show in the diagnostic's word. -/
def execRet (ignored : Nibble) (s : State) : Result :=
  if h : 0 < s.sp.val then .next (State.popPc s h)
  else .next (State.emitDiag s .stackUnderflow (encode (.ret ignored)))

/-- `3xkk` SE Vx,kk (R124). -/
def execSeVxKk (x : Nibble) (kk : Byte) (s : State) : Result :=
  .next (State.skipIf s (State.reg s x == kk))

/-- `4xkk` SNE Vx,kk (R125). -/
def execSneVxKk (x : Nibble) (kk : Byte) (s : State) : Result :=
  .next (State.skipIf s (State.reg s x != kk))

/-- `5xy?` SE Vx,Vy: the low nibble is ignored (R126; assumption log 8). -/
def execSeVxVy (x y _ignored : Nibble) (s : State) : Result :=
  .next (State.skipIf s (State.reg s x == State.reg s y))

/-- `9xy?` SNE Vx,Vy: the low nibble is ignored (R127; assumption log 8). -/
def execSneVxVy (x y _ignored : Nibble) (s : State) : Result :=
  .next (State.skipIf s (State.reg s x != State.reg s y))

/-- `Ex9E` SKP Vx (R128). -/
def execSkpVx (x : Nibble) (s : State) : Result := .next (State.skipIf s (State.keyPressed s x))

/-- `ExA1` SKNP Vx (R129). -/
def execSknpVx (x : Nibble) (s : State) : Result := .next (State.skipIf s (!State.keyPressed s x))

/-- A word of the unrecognised space: the diagnostic and nothing else (spec/40_step_cycle.md R94). It has
no row in the opcode table, so it is no constructor; `step` runs it when the decoder refuses a word. -/
def execUnrecognised (w : Word) (s : State) : Result :=
  .next (State.emitDiag s .unrecognizedOpcode w)

end Sys2Proof.Machine
end

