-- ==== Sys2Proof/Machine/Cycle.lean ====
section
/-! DEFINITION. The order of a step (spec/40_step_cycle.md R90), over whatever executes an instruction, so
that the step of either value of `KEY_WAIT_MODE` is the same one. -/

namespace Sys2Proof.Machine

/-- One step, `run` being the execute phase of an instruction. Normally: phase 0, fetch, advance, decode,
execute (an unrecognised word executes by R94), tick. While a key-wait is under way (spec/44_timer_memory_bcd.md
R152) nothing is fetched: phase 0, the poll of the keys, tick. -/
def stepBy (run : Instr → State → Result) (s : State) : Result :=
  let s0 := State.beginStep s
  match s0.wait with
  | some r => endStepAfter (.next (State.pollKeys s0 r))
  | none =>
    let w := State.fetchWord s0
    match decode w with
    | .ok i => endStepAfter (run i (State.advancePc s0))
    | .error _ => endStepAfter (execUnrecognised w (State.advancePc s0))

end Sys2Proof.Machine
end

