-- ==== Sys2Proof/Machine/Flags.lean ====
section
/-! DEFINITION. The flag register `VF` and every flag computation (spec/10_state.md R25 to R27,
spec/41_register_logic.md R106 to R111). All comparisons are unsigned (spec/00_scope.md R10). -/

namespace Sys2Proof.Machine

/-- The number of the flag register, `V[0xF]` (spec/10_state.md R25). -/
def flagReg : Nibble := 0xF

/-- The whole register becomes exactly 0 or exactly 1 (spec/10_state.md R25). -/
def flagByte (f : Bool) : Byte := if f then 1 else 0

/-- `V[0xF] <- f`. -/
def State.setFlag (s : State) (f : Bool) : State := State.setReg s flagReg (flagByte f)

/-- `V[x] <- b`, then `V[0xF] <- f`: the flag is written last, so with `x = 0xF` it is what stays
(spec/10_state.md R27; decision D11, assumption log 9). -/
def State.setRegFlag (s : State) (x : Nibble) (b : Byte) (f : Bool) : State :=
  State.setFlag (State.setReg s x b) f

/-- Carry out of bit 7: `a + b > 255` (spec/41_register_logic.md R106). -/
def carryFlag (a b : Byte) : Bool := decide (a.toNat + b.toNat > 255)

/-- The flag of SUB: 1 exactly when the minuend is strictly greater, so 0 for equal operands
(spec/41_register_logic.md R107). -/
def subFlag (a b : Byte) : Bool := decide (a.toNat > b.toNat)

/-- The flag of SUBN: 1 exactly when `V[x] >= V[y]`, the source's own convention
(spec/41_register_logic.md R109, spec/90_conflicts.md C5). -/
def subnFlag (a b : Byte) : Bool := decide (a.toNat ≥ b.toNat)

/-- The bit that SHR shifts out, `a[0]` (spec/41_register_logic.md R108). -/
def shrFlag (a : Byte) : Bool := a.getLsbD 0

/-- The bit that SHL shifts out, `a[7]` (spec/41_register_logic.md R110). -/
def shlFlag (a : Byte) : Bool := a.getLsbD 7

end Sys2Proof.Machine
end

