-- ==== Sys2Proof/Machine/Draw.lean ====
section
/-! DEFINITION. The framebuffer instructions: clear, and the sprite XOR compositor with its collision
detector (spec/43_draw.md). -/

namespace Sys2Proof.Machine

/-- Toggle pixel `p`; a lit pixel that goes unlit is a collision, and a collision stays (R142). -/
def togglePixel (p : Nat) (acc : Framebuffer × Bool) : Framebuffer × Bool :=
  (fbToggle acc.1 p, acc.2 || fbPixel acc.1 p)

/-- One sprite row: bit `7 - c` of the byte is column `c`, and a set bit toggles its pixel (R141, R142). -/
def drawByte (b : Byte) (row vx : Nat) (acc : Framebuffer × Bool) : Framebuffer × Bool :=
  (List.range 8).foldl
    (fun acc c => if b.getLsbD (7 - c) then togglePixel (pixelIndex row (vx + c)) acc else acc) acc

/-- The sprite's rows from framebuffer row `row` on (R142). -/
def drawRows (vx : Nat) : List Byte → Nat → Framebuffer × Bool → Framebuffer × Bool
  | [], _, acc => acc
  | b :: bs, row, acc => drawRows vx bs (row + 1) (drawByte b row vx acc)

/-- `0?E0` CLS: every pixel unlit, `RP <- 1` (R140). The ignored bits do nothing (assumption log 8). -/
def execCls (_ignored : Nibble) (s : State) : Result := .next { s with fb := Vector.replicate 32 0, rp := true }

/-- `Dxyn` DRW Vx,Vy,n: the coordinates are read before `VF` is written, `VF` is the collision flag, also
for `n = 0`, and `RP <- 1` (R142; decision D22, assumption log 9). -/
def execDrwVxVyN (x y n : Nibble) (s : State) : Result :=
  let rows := Memory.readBytes s.mem (State.dataAddr s) n.toNat
  let drawn := drawRows (State.reg s x).toNat rows (State.reg s y).toNat (s.fb, false)
  .next { State.setFlag s drawn.2 with fb := drawn.1, rp := true }

end Sys2Proof.Machine
end

