-- ==== Sys2Proof/Machine/RegisterLogic.lean ====
section
/-! DEFINITION. The register, logic and arithmetic instructions (spec/41_register_logic.md). Each meaning
is the execute phase: `pc` is already advanced, and none changes it. Operands are read from the state
the phase begins with (spec/00_scope.md R13). -/

namespace Sys2Proof.Machine

/-- `6xkk` LD Vx,kk (R100). -/
def execLdVxKk (x : Nibble) (kk : Byte) (s : State) : Result := .next (State.setReg s x kk)

/-- `7xkk` ADD Vx,kk: wraps, no flag (R101; assumption log 11). -/
def execAddVxKk (x : Nibble) (kk : Byte) (s : State) : Result :=
  .next (State.setReg s x (State.reg s x + kk))

/-- `8xy0` LD Vx,Vy (R102). -/
def execLdVxVy (x y : Nibble) (s : State) : Result := .next (State.setReg s x (State.reg s y))

/-- `8xy1` OR Vx,Vy: no flag (R103; assumption log 11). -/
def execOrVxVy (x y : Nibble) (s : State) : Result :=
  .next (State.setReg s x (State.reg s x ||| State.reg s y))

/-- `8xy2` AND Vx,Vy: no flag (R104; assumption log 11). -/
def execAndVxVy (x y : Nibble) (s : State) : Result :=
  .next (State.setReg s x (State.reg s x &&& State.reg s y))

/-- `8xy3` XOR Vx,Vy: no flag (R105; assumption log 11). -/
def execXorVxVy (x y : Nibble) (s : State) : Result :=
  .next (State.setReg s x (State.reg s x ^^^ State.reg s y))

/-- `8xy4` ADD Vx,Vy, `VF` the carry (R106). -/
def execAddVxVy (x y : Nibble) (s : State) : Result :=
  let a := State.reg s x
  let b := State.reg s y
  .next (State.setRegFlag s x (a + b) (carryFlag a b))

/-- `8xy5` SUB Vx,Vy, `VF` = (`V[x] > V[y]`) (R107). -/
def execSubVxVy (x y : Nibble) (s : State) : Result :=
  let a := State.reg s x
  let b := State.reg s y
  .next (State.setRegFlag s x (a - b) (subFlag a b))

/-- `8xy6` SHR Vx: `V[x]` in place, `y` is neither read nor written (R108; assumption log 10). -/
def execShrVx (x _y : Nibble) (s : State) : Result :=
  let a := State.reg s x
  .next (State.setRegFlag s x (a >>> 1) (shrFlag a))

/-- `8xy7` SUBN Vx,Vy, `VF` = (`V[x] >= V[y]`) (R109). -/
def execSubnVxVy (x y : Nibble) (s : State) : Result :=
  let a := State.reg s x
  let b := State.reg s y
  .next (State.setRegFlag s x (b - a) (subnFlag a b))

/-- `8xyE` SHL Vx: `V[x]` in place, `y` is neither read nor written (R110; assumption log 10). -/
def execShlVx (x _y : Nibble) (s : State) : Result :=
  let a := State.reg s x
  .next (State.setRegFlag s x (a <<< 1) (shlFlag a))

/-- `Cxkk` RND Vx,kk: the draw of this step AND `kk` (R112; assumption log 2). -/
def execRndVxKk (x : Nibble) (kk : Byte) (s : State) : Result :=
  .next (State.setReg s x (Config.rnd s.stepNo &&& kk))

end Sys2Proof.Machine
end

