-- ==== Sys2Proof/Machine/TimerMemoryBcd.lean ====
section
/-! DEFINITION. The index-register, timer, key-wait, font, BCD and block-transfer instructions
(spec/44_timer_memory_bcd.md). None writes `VF` as a flag and none changes `pc`. -/

namespace Sys2Proof.Machine

/-- `Annn` LD I,nnn (R150). -/
def execLdINnn (nnn : Addr) (s : State) : Result := .next { s with index := zextAddr nnn }

/-- `Fx1E` ADD I,Vx: wraps at 65536, no flag (R155; assumption log 11). -/
def execAddIVx (x : Nibble) (s : State) : Result :=
  .next { s with index := s.index + zextByte (State.reg s x) }

/-- `Fx29` LD F,Vx: no memory access (R156). -/
def execLdFVx (x : Nibble) (s : State) : Result := .next { s with index := glyphAddr (State.reg s x) }

/-- `Fx07` LD Vx,DT: `DT` before this step's own tick (R151). -/
def execLdVxDt (x : Nibble) (s : State) : Result := .next (State.setReg s x s.dt)

/-- `Fx15` LD DT,Vx (R153). -/
def execLdDtVx (x : Nibble) (s : State) : Result := .next { s with dt := State.reg s x }

/-- `Fx18` LD ST,Vx (R154). -/
def execLdStVx (x : Nibble) (s : State) : Result := .next { s with st := State.reg s x }

/-- `Fx0A` LD Vx,K under either value of `KEY_WAIT_MODE` (R152). `noop`: a diagnostic and nothing else;
`wait`: the wait begins, and `step` polls the keys until it ends. -/
def execKeyWait (mode : KeyWaitMode) (x : Nibble) (s : State) : Result :=
  match mode with
  | .noop => .next (State.emitDiag s .unimplementedOpcode (encode (.ldVxK x)))
  | .wait => .next { s with wait := some x }

/-- `Fx0A` LD Vx,K (R152; decision D5, assumption log 3). -/
def execLdVxK (x : Nibble) (s : State) : Result := execKeyWait keyWaitMode x s

/-- `Fx33` LD B,Vx: the digits of `V[x]` at `I`, `I + 1`, `I + 2` (R157). -/
def execLdBVx (x : Nibble) (s : State) : Result :=
  .next { s with mem := Memory.writeBytes s.mem (State.dataAddr s) (bcdDigits (State.reg s x)) }

/-- `Fx55` LD [I],Vx: `V[0]`..`V[x]` at `I`.., `I` unchanged (R158; decision D15, assumption log 12). -/
def execLdMemVx (x : Nibble) (s : State) : Result :=
  .next { s with mem := Memory.writeBytes s.mem (State.dataAddr s) (State.regsUpTo s x) }

/-- `Fx65` LD Vx,[I]: `V[0]`..`V[x]` from `I`.., `I` unchanged (R159; decision D15, assumption log 12). -/
def execLdVxMem (x : Nibble) (s : State) : Result :=
  .next (State.setRegs s 0 (Memory.readBytes s.mem (State.dataAddr s) (x.toNat + 1)))

end Sys2Proof.Machine
end

