-- ==== Sys2Proof/Machine/KeyWait.lean ====
section
/-! DEFINITION. The execute phase with the parameter `KEY_WAIT_MODE` as an argument (spec/00_scope.md R8,
spec/44_timer_memory_bcd.md R152; decision D5, assumption log 3). `exec` is this with the default. -/

namespace Sys2Proof.Machine

/-- The register of a key-wait instruction; every other instruction does the same in both modes. -/
def keyWaitReg : Instr → Option Nibble
  | .ldVxK x => some x
  | .cls _ | .ret _ | .jp _ | .call _ | .seVxKk _ _ | .sneVxKk _ _ | .seVxVy _ _ _ => none
  | .ldVxKk _ _ | .addVxKk _ _ | .ldVxVy _ _ | .orVxVy _ _ | .andVxVy _ _ | .xorVxVy _ _ => none
  | .addVxVy _ _ | .subVxVy _ _ | .shrVx _ _ | .subnVxVy _ _ | .shlVx _ _ | .sneVxVy _ _ _ => none
  | .ldINnn _ | .jpV0Nnn _ | .rndVxKk _ _ | .drwVxVyN _ _ _ | .skpVx _ | .sknpVx _ => none
  | .ldVxDt _ | .ldDtVx _ | .ldStVx _ | .addIVx _ | .ldFVx _ | .ldBVx _ | .ldMemVx _ | .ldVxMem _ => none

/-- The execute phase of an instruction on a machine whose `KEY_WAIT_MODE` is `mode`. -/
def execIn (mode : KeyWaitMode) (i : Instr) (s : State) : Result :=
  match keyWaitReg i with
  | some x => execKeyWait mode x s
  | none => exec i s

end Sys2Proof.Machine
end

