-- ==== Sys2Proof/Machine/Step.lean ====
section
/-! DEFINITION. The step, the machine's one operation (spec/40_step_cycle.md R90), the step of a machine with
either value of `KEY_WAIT_MODE`, and the placing of one instruction where the next step fetches. -/

namespace Sys2Proof.Machine

/-- One step, with the default of `KEY_WAIT_MODE` (assumption log 3). -/
def step (s : State) : Host.Outcome State Fault Refusal := stepBy exec s

/-- One step of a machine whose parameter `KEY_WAIT_MODE` is `mode` (spec/00_scope.md R8,
spec/44_timer_memory_bcd.md R152). `step` is this with the default. -/
def stepIn (mode : KeyWaitMode) (s : State) : Result := stepBy (execIn mode) s

/-- The state with the instruction of the word `w` (its bits above `nbits` zero) placed where the next step
fetches, so that the next step fetches and runs it (assumption log 21). -/
def State.withFetchWord (s : State) (nbits w : Nat) : State :=
  State.placeWord s (BitVec.ofNat 16 (w % 2 ^ nbits))

end Sys2Proof.Machine
end

