-- ==== Sys2Proof/Machine/HostPort.lean ====
section
/-! DEFINITION. What the host does to the machine between steps, other than the step itself
(spec/70_reset_and_hazards.md R200, R202, R205). Its reads are the fields of `State`. -/

namespace Sys2Proof.Machine

/-- `reset` of a machine whose parameter `FONT` is `font`: every component at its reset value, memory the font
and zeros (R200, spec/10_state.md R37, R39; decision D16, assumption log 4). `State.reset` is this with the
default font. -/
def State.resetWith (font : Font) : State :=
  { State.reset with mem := Memory.writeBytes State.reset.mem 0 font.toList }

/-- `load(image)`: byte `j` of the image goes to `MEM[0x200 + j]`; an image longer than 3584 bytes is
refused (R202; decision D26, assumption log 21). -/
def State.load (image : List Byte) (s : State) : Result :=
  if Image.wellFormed image then .next { s with mem := Memory.writeBytes s.mem progBase.toNat image }
  else .refused .imageTooLong

/-- `set_keys(k[0..15])`: overwrite `KEY` (R205; decision D24, assumption log 20). -/
def State.setKeys (keys : BitVec 16) (s : State) : State := { s with key := keys }

end Sys2Proof.Machine
end

