-- ==== Sys2Proof/Safety.lean ====
section
/-! DEFINITION. The terms claims are stated in: what a step keeps, what it runs and where it goes, the
invariant of every reachable state, the states a host can bring about, the finished states, and the
compositor as a closed formula. No step can go wrong on this machine (spec/40_step_cycle.md R90); what is
safe is that it keeps the invariant. -/

namespace Sys2Proof.Safety

open Sys2Proof.Machine

/-! ### Frames -/

/-- Every byte of memory reads as before. -/
def MemKept (s t : State) : Prop := ∀ a : Nat, Memory.read t.mem a = Memory.read s.mem a

/-- Every byte of memory outside the `n` bytes from address `addr` (each address reduced modulo 4096,
spec/20_memory.md R55) reads as before. -/
def MemKeptOutside (addr n : Nat) (s t : State) : Prop :=
  ∀ a : Nat, (∀ k < n, (addr + k) % 4096 ≠ a % 4096) → Memory.read t.mem a = Memory.read s.mem a

/-- Every general register but those listed holds what it held. -/
def RegsKept (dest : List Nibble) (s t : State) : Prop :=
  ∀ r : Nibble, r ∉ dest → State.reg t r = State.reg s r

/-- Only the listed general registers may differ: memory, `I`, `pc`, the stack, the framebuffer, the
timers, the keys, `RP`, the outputs and the rest are as before. -/
def OnlyRegs (dest : List Nibble) (s t : State) : Prop :=
  RegsKept dest s t ∧ MemKept s t ∧ t = { s with v := t.v }

/-- Only `pc` may differ. -/
def OnlyPc (s t : State) : Prop := MemKept s t ∧ t = { s with pc := t.pc }

/-- Only memory may differ, and of memory only the `n` bytes from `addr`. -/
def OnlyMem (addr n : Nat) (s t : State) : Prop := MemKeptOutside addr n s t ∧ t = { s with mem := t.mem }

/-! ### What a step runs, and where it leaves `pc` -/

/-- The instruction the next step runs: none for an unrecognised word, and none while a key-wait is under
way. -/
def runs (s : State) : Option Instr :=
  match s.wait with
  | some _ => none
  | none => (decode (State.fetchWord s)).toOption

/-- The value of `pc` after the step, from the state before it (spec/10_state.md R30): `s.pc` is the address
of the instruction. -/
def pcAfter (s : State) : Word :=
  match runs s with
  | some (.jp nnn) => BitVec.ofNat 16 nnn.toNat
  | some (.jpV0Nnn nnn) => BitVec.ofNat 16 (nnn.toNat + (State.reg s 0).toNat)
  | some (.call nnn) => if s.sp.val < 16 then BitVec.ofNat 16 nnn.toNat else s.pc + 2
  | some (.ret _) => if h : 0 < s.sp.val then s.stack[s.sp.val - 1]'(by omega) else s.pc + 2
  | some (.seVxKk x kk) => if State.reg s x = kk then s.pc + 4 else s.pc + 2
  | some (.sneVxKk x kk) => if State.reg s x ≠ kk then s.pc + 4 else s.pc + 2
  | some (.seVxVy x y _) => if State.reg s x = State.reg s y then s.pc + 4 else s.pc + 2
  | some (.sneVxVy x y _) => if State.reg s x ≠ State.reg s y then s.pc + 4 else s.pc + 2
  | some (.skpVx x) => if s.key.getLsbD ((State.reg s x).toNat % 16) = true then s.pc + 4 else s.pc + 2
  | some (.sknpVx x) => if s.key.getLsbD ((State.reg s x).toNat % 16) = false then s.pc + 4 else s.pc + 2
  | _ => s.pc + 2

/-- The output `diag` of the step, from the state before it (spec/60_exceptions.md R170), no key-wait being
under way. -/
def diagAfter (s : State) : Option Diag :=
  match decode (State.fetchWord s) with
  | .error _ => some { kind := .unrecognizedOpcode, word := State.fetchWord s, addr := s.pc }
  | .ok (.ldVxK _) => some { kind := .unimplementedOpcode, word := State.fetchWord s, addr := s.pc }
  | .ok (.call _) =>
    if s.sp.val = 16 then some { kind := .stackOverflow, word := State.fetchWord s, addr := s.pc } else none
  | .ok (.ret _) =>
    if s.sp.val = 0 then some { kind := .stackUnderflow, word := State.fetchWord s, addr := s.pc } else none
  | .ok _ => none

/-- The value of `DT` that the tick of the next step finds (spec/60_exceptions.md R180). -/
def dtAtTick (s : State) : Byte :=
  match runs s with
  | some (.ldDtVx x) => State.reg s x
  | _ => s.dt

/-- The value of `ST` that the tick of the next step finds (spec/60_exceptions.md R180). -/
def stAtTick (s : State) : Byte :=
  match runs s with
  | some (.ldStVx x) => State.reg s x
  | _ => s.st

/-! ### The invariant -/

/-- A diagnostic left by a step belongs to the word before `pc`, and its cause is there: an unrecognised
word, a key-wait, a call on a full stack, a return on an empty one (spec/60_exceptions.md R170, R172). -/
def DiagOk (s : State) : Prop :=
  ∀ d, s.diag = some d →
    s.pc = d.addr + 2 ∧
    match d.kind with
    | .unrecognizedOpcode => ∃ e, decode d.word = .error e
    | .unimplementedOpcode => ∃ x, decode d.word = .ok (.ldVxK x)
    | .stackOverflow => s.sp.val = 16 ∧ ∃ nnn, decode d.word = .ok (.call nnn)
    | .stackUnderflow => s.sp.val = 0 ∧ ∃ ign, decode d.word = .ok (.ret ign)

/-- What holds between steps of a machine whose `KEY_WAIT_MODE` is `mode`, whatever the host does: memory has
its canonical form, a beep leaves `ST` at 0 (spec/60_exceptions.md R182), a diagnostic has its cause, a step
that touched the framebuffer emitted none (spec/43_draw.md), a key-wait is under way only in the mode `wait`
and neither begins nor goes on with a diagnostic or a redraw, and in that mode no instruction is an
unimplemented one (spec/10_state.md R40, spec/44_timer_memory_bcd.md R152). -/
def InvIn (mode : KeyWaitMode) (s : State) : Prop :=
  Memory.wf s.mem = true ∧ (s.beep = true → s.st = 0) ∧ DiagOk s ∧ (s.rp = true → s.diag = none) ∧
    (∀ r, s.wait = some r → mode = .wait ∧ s.diag = none ∧ s.rp = false) ∧
    (∀ d, s.diag = some d → d.kind = .unimplementedOpcode → mode = .noop)

/-- The invariant of the machine, with the default mode of key-wait: no key-wait is under way. -/
def Inv (s : State) : Prop := InvIn keyWaitMode s

/-! ### What a host can bring about (spec/70_reset_and_hazards.md R205) -/

/-- The states reachable from reset on a machine whose `KEY_WAIT_MODE` is `mode`: the host resets, with any font,
loads before the first step, sets the keys at any step boundary, and steps (assumption log 20). DESIGN CHOICE,
assumption log 31: the spec gives no count of the loads before the first step, and any number is allowed here,
also none; a later, shorter image leaves the rest of an earlier one in memory. -/
inductive Reachable (mode : KeyWaitMode) : State → Prop where
  | reset (font : Font) : Reachable mode (State.resetWith font)
  | load {s t : State} {image : List Byte} :
      Reachable mode s → s.stepNo = 0 → State.load image s = .next t → Reachable mode t
  | setKeys {s : State} (keys : BitVec 16) : Reachable mode s → Reachable mode (State.setKeys keys s)
  | step {s t : State} : Reachable mode s → stepIn mode s = .next t → Reachable mode t

/-! ### The end of a run (spec/70_reset_and_hazards.md R209; decision D28, assumption log 30) -/

/-- A finished state: an even `pc = a`, `a` at most 0xFFF, at a jump to itself, the word `0x1000 + a`. -/
def Finished (s : State) : Prop :=
  s.pc.toNat % 2 = 0 ∧ s.pc.toNat ≤ 0xFFF ∧ State.fetchWord s = 0x1000 + s.pc

/-! ### The compositor as a formula (spec/43_draw.md R143) -/

/-- The sprite bit that a `DRW Vx,Vy,n` lays on the pixel of a row and a column: which sprite row and which
sprite column could land there, and the bit of the sprite byte there, 0 outside the sprite. -/
def spriteBit (s : State) (x y n : Nibble) (row col : Nat) : Bool :=
  let r := (((row : Int) - ((State.reg s y).toNat : Int)) % 32).toNat
  let c := (((col : Int) - ((State.reg s x).toNat : Int)) % 64).toNat
  decide (r < n.toNat) && decide (c < 8) && (Memory.read s.mem (s.index.toNat + r)).getLsbD (7 - c)

end Sys2Proof.Safety
end

