-- ==== Sys2Proof/Certificates/Slice0/Obligations.lean ====
section
/-! DEFINITION. The statements for the provers. Each is about all states (or all words, or all instructions),
reached by a run or not, unless it says otherwise. `exec i s` is the execute phase: `s.pc` is the advanced
pc, the address of the instruction plus 2; `step s` is the whole step, and there `s.pc` is the address of
the instruction. A statement whose clause rests on a decision of the spec (spec/92_eei_decisions.md) says
so and names the assumption log's entry. -/

open Sys2Proof Sys2Proof.Machine Sys2Proof.Safety

/-! ## Encoding and decoding (spec/30_encoding.md) -/

/-- Decoding the word of an instruction, or its two bytes as memory holds them, gives the instruction back,
for every instruction and every value of every field: no bit of an encoding is dropped. The opcode numbers
are assumption log 14; that every value of the bits the decoder does not examine (`?` in `0?E0`, `0?EE`, `5xy?`,
`9xy?`) is a spelling of the instruction is decisions D8 and D9, assumption log 8. -/
def Obligations.DecodeOfEncodeIsTheInstruction : Prop :=
  ∀ i : Instr,
    decode (encode i) = .ok i ∧ decodeBytes (highByte (encode i)) (lowByte (encode i)) = .ok i

/-- A word that decodes is the word of what it decodes to: with the ignored bits kept as fields the decoder
loses nothing. The opcode numbers are assumption log 14, the bits ignored log 8. -/
def Obligations.EncodeOfDecodeIsTheWord : Prop :=
  ∀ (w : Word) (i : Instr), decode w = .ok i → encode i = w

/-- `w & mask = match` for the row of an instruction exactly when the decoder reads an instruction of that
row from `w`: the rows are disjoint and the decoder is the opcode map. The bits examined are the spec's
decisions D8 and D9, assumption log 8. -/
def Obligations.OpcodeMapSelectsTheRow : Prop :=
  ∀ (w : Word) (i : Instr),
    w &&& opcodeMask i = opcodeMatch i ↔ ∃ j, decode w = .ok j ∧ opcodeMatch j = opcodeMatch i

/-- The unrecognised words are exactly the spec's list, family by family, and each of the four families has
as many of them as the spec counts. Which bits the second dispatch reads is decision D8, assumption
log 8. -/
def Obligations.UnrecognisedSpaceIsTheSpecsList : Prop :=
  (∀ w : Word, (∃ e, decode w = .error e) ↔
    (w.toNat / 4096 = 0x0 ∧ w.toNat % 256 ≠ 0xE0 ∧ w.toNat % 256 ≠ 0xEE) ∨
    (w.toNat / 4096 = 0x8 ∧ w.toNat % 16 ∈ [0x8, 0x9, 0xA, 0xB, 0xC, 0xD, 0xF]) ∨
    (w.toNat / 4096 = 0xE ∧ w.toNat % 256 ≠ 0x9E ∧ w.toNat % 256 ≠ 0xA1) ∨
    (w.toNat / 4096 = 0xF ∧ w.toNat % 256 ∉ [0x07, 0x0A, 0x15, 0x18, 0x1E, 0x29, 0x33, 0x55, 0x65])) ∧
  (List.range 4096).countP (fun k => !(decode (BitVec.ofNat 16 k)).isOk) = 4064 ∧
  (List.range 4096).countP (fun k => !(decode (BitVec.ofNat 16 (0x8000 + k))).isOk) = 1792 ∧
  (List.range 4096).countP (fun k => !(decode (BitVec.ofNat 16 (0xE000 + k))).isOk) = 4064 ∧
  (List.range 4096).countP (fun k => !(decode (BitVec.ofNat 16 (0xF000 + k))).isOk) = 3952

/-- A few words written out from the opcode map decode to the instructions they stand for, and the word 0x0000
is unrecognised. The opcode numbers the source does not print are assumption log 14. -/
def Obligations.SpelledOutWordsDecode : Prop :=
  decode 0x00E0 = .ok (.cls 0) ∧ decode 0x2300 = .ok (.call 0x300) ∧
  decode 0x6A2C = .ok (.ldVxKk 0xA 0x2C) ∧ decode 0x8124 = .ok (.addVxVy 1 2) ∧
  decode 0xD011 = .ok (.drwVxVyN 0 1 1) ∧ decode 0xE29E = .ok (.skpVx 2) ∧
  decode 0xF433 = .ok (.ldBVx 4) ∧ decode 0x0000 = .error .family0

/-! ## The step (spec/40_step_cycle.md, spec/60_exceptions.md) -/

/-- When the word at `pc` decodes to an instruction and no key-wait is under way, the step is the clearing of
`RP`, `diag` and `beep`, the advance of `pc`, the execute phase of that instruction and, after it, the end
of the step (the tick, and the model's count of steps, assumption log 2). That the core clears `RP` at the start
of the step is decision D3, assumption log 17; how the step is cut into `exec` and the rest is the model's,
assumption log 29. The steps of a key-wait under way are KeyWaitInTheWaitMode's. -/
def Obligations.StepRunsTheDecodedInstruction : Prop :=
  ∀ (s : State) (i : Instr), s.wait = none → decode (State.fetchWord s) = .ok i →
    step s = endStepAfter (exec i { s with rp := false, diag := none, beep := false, pc := s.pc + 2 })

/-- The fetch: the byte at `pc` is the high byte of the word and the byte at `pc + 1` the low one, each
address reduced modulo 4096 (decisions D2 and D18, assumption logs 6 and 23). -/
def Obligations.FetchIsBigEndianModulo4096 : Prop :=
  ∀ s : State, (State.fetchWord s).toNat =
    (Memory.read s.mem (s.pc.toNat % 4096)).toNat * 256 +
      (Memory.read s.mem ((s.pc.toNat + 1) % 4096)).toNat

/-- A step on an unrecognised word changes nothing but `pc`, which advances by 2, the diagnostic, the two
timers, which count also here (decision D21, assumption log 18), `RP`, which the core clears at the start of
every step (decision D3, assumption log 17), `beep`, and the model's own count of steps, which grows by 1
(assumption log 2); with both timers at 0 the timers and `beep` stay at 0 too. The form of the diagnostic is
decision D20 (assumption log 19). -/
def Obligations.UnrecognisedWordIsALoggedNoOp : Prop :=
  ∀ (s : State) (e : Unrecognised), s.wait = none → decode (State.fetchWord s) = .error e →
    step s = .next { s with
      pc := BitVec.ofNat 16 (s.pc.toNat + 2)
      rp := false
      diag := some { kind := .unrecognizedOpcode, word := State.fetchWord s, addr := s.pc }
      dt := BitVec.ofNat 8 (s.dt.toNat - 1)
      st := BitVec.ofNat 8 (s.st.toNat - 1)
      beep := decide (s.st.toNat = 1)
      stepNo := s.stepNo + 1 }

/-- From every state the step answers a next state, in which the keys are as they were and the model's own count
of steps (assumption log 2) is 1 more: no phase can block, fault or be refused (DEDUCED, assumption log 26). -/
def Obligations.EveryStepCompletes : Prop :=
  ∀ s : State, ∃ t, step s = .next t ∧ t.stepNo = s.stepNo + 1 ∧ t.key = s.key

/-- The tick runs at the end of every step, whatever was executed: `DT` and `ST` fall by one and stop at 0,
counted from the value the execute phase left (decision D21, assumption log 18), and `beep` is raised
exactly when `ST` was 1 just before its decrement. -/
def Obligations.TimersCountAtTheEndOfEveryStep : Prop :=
  ∀ s : State, ∃ t, step s = .next t ∧
    t.dt.toNat = (dtAtTick s).toNat - 1 ∧ t.st.toNat = (stAtTick s).toNat - 1 ∧
    (t.beep = true ↔ (stAtTick s).toNat = 1)

/-- The value of `pc` after every step of an instruction or an unrecognised word: the spec's table
(the full and the empty stack are assumption log 7, the ignored low nibbles log 8, the key's number log 13, the
sum of JP V0 log 25). -/
def Obligations.PcAfterEveryStepFollowsTheTable : Prop :=
  ∀ s : State, s.wait = none → ∃ t, step s = .next t ∧ t.pc = pcAfter s

/-- After a step `RP` is 1 exactly when the instruction executed was CLS or DRW (decision D3, assumption
log 17). -/
def Obligations.RedrawIsPendingExactlyAfterClsOrDrw : Prop :=
  ∀ s : State, ∃ t, step s = .next t ∧
    (t.rp = true ↔ (∃ ign, runs s = some (.cls ign)) ∨ (∃ x y n, runs s = some (.drwVxVyN x y n)))

/-- The diagnostic of every step: its kind, the word that was fetched and the address it was fetched from,
or none (decision D20, assumption log 19). That the key-wait emits one is decision D5 (assumption log 3), that a
full or an empty stack does is decision D6 (assumption log 7). The steps of a key-wait under way are
KeyWaitInTheWaitMode's. -/
def Obligations.DiagnosticOfEveryStep : Prop :=
  ∀ s : State, s.wait = none → ∃ t, step s = .next t ∧ t.diag = diagAfter s

/-- Only JP, JP V0, CALL and RET can make an even `pc` odd (decision D18, assumption log 23). -/
def Obligations.OtherStepsKeepAnEvenPc : Prop :=
  ∀ s : State, s.pc.toNat % 2 = 0 → s.wait = none →
    (∀ nnn, runs s ≠ some (.jp nnn)) → (∀ nnn, runs s ≠ some (.jpV0Nnn nnn)) →
    (∀ nnn, runs s ≠ some (.call nnn)) → (∀ ign, runs s ≠ some (.ret ign)) →
    ∃ t, step s = .next t ∧ t.pc.toNat % 2 = 0

/-- At a finished state (decision D28, assumption log 30) every step leaves everything unchanged but `DT` and
`ST`, which run down, `RP`, `beep` and `diag` (none), and the model's count of steps; the state stays
finished. -/
def Obligations.FinishedStateStaysPut : Prop :=
  ∀ s : State, s.wait = none → Finished s →
    ∃ t, step s = .next t ∧ Finished t ∧ t.rp = false ∧ t.diag = none ∧
      t.dt.toNat = s.dt.toNat - 1 ∧ t.st.toNat = s.st.toNat - 1 ∧
      t = { s with dt := t.dt, st := t.st, rp := t.rp, beep := t.beep, diag := t.diag, stepNo := t.stepNo }

/-! ## Whole-machine rules -/

/-- Only `LD B,Vx` and `LD [I],Vx` write memory. -/
def Obligations.OnlyBcdAndBlockStoreWriteMemory : Prop :=
  ∀ (i : Instr) (s : State), ∃ t, exec i s = .next t ∧
    ((∀ x, i ≠ .ldBVx x) → (∀ x, i ≠ .ldMemVx x) → MemKept s t ∧ t.mem = s.mem)

/-- Only CALL and RET touch the call stack, only CLS and DRW the framebuffer and `RP`, only `Annn`, `Fx1E` and
`Fx29` the index register, only `Fx15` the delay timer and only `Fx18` the sound timer; no instruction
writes the keys, the beep or (in the default mode, assumption log 3) `WAIT`, and each completes from every
state. That `Fx55` and `Fx65` leave the index register is decision D15, assumption log 12. -/
def Obligations.EachComponentHasItsOwnWriters : Prop :=
  ∀ (i : Instr) (s : State), ∃ t, exec i s = .next t ∧
    ((∀ nnn, i ≠ .call nnn) → (∀ ign, i ≠ .ret ign) → t.stack = s.stack ∧ t.sp = s.sp) ∧
    ((∀ ign, i ≠ .cls ign) → (∀ x y n, i ≠ .drwVxVyN x y n) → t.fb = s.fb ∧ t.rp = s.rp) ∧
    ((∀ nnn, i ≠ .ldINnn nnn) → (∀ x, i ≠ .addIVx x) → (∀ x, i ≠ .ldFVx x) → t.index = s.index) ∧
    ((∀ x, i ≠ .ldDtVx x) → t.dt = s.dt) ∧ ((∀ x, i ≠ .ldStVx x) → t.st = s.st) ∧
    t.key = s.key ∧ t.beep = s.beep ∧ t.wait = s.wait

/-- The draw `rnd` is read only by RND: with another draw every other instruction does the same. -/
def Obligations.OnlyRndReadsTheDraw : Prop :=
  ∀ (i : Instr) (s : State) (k : Nat), (∀ x kk, i ≠ .rndVxKk x kk) →
    ∃ t, exec i s = .next t ∧ exec i { s with stepNo := k } = .next { t with stepNo := k }

/-- The key state is read only by SKP and SKNP (in the default mode of key-wait): with other keys every
other instruction does the same. -/
def Obligations.OnlyKeySkipsReadTheKeys : Prop :=
  ∀ (i : Instr) (s : State) (keys : BitVec 16), (∀ x, i ≠ .skpVx x) → (∀ x, i ≠ .sknpVx x) →
    ∃ t, exec i s = .next t ∧ exec i { s with key := keys } = .next { t with key := keys }

/-- The invariant of the machine holds at reset, and so does that of a machine with either mode of key-wait
(assumption log 3). -/
def Obligations.ResetMeetsTheInvariant : Prop :=
  Inv State.reset ∧ ∀ mode : KeyWaitMode, InvIn mode State.reset

/-- From every state that meets the invariant, every step gives a state that meets it: the step of the machine
with the default mode of key-wait, and the step of a machine with either mode (assumption log 3). The stack's
diagnostics are log 7, the form of a diagnostic log 19. -/
def Obligations.EveryStepKeepsTheInvariant : Prop :=
  (∀ s : State, Inv s → ∃ t, step s = .next t ∧ Inv t) ∧
  (∀ (mode : KeyWaitMode) (s : State), InvIn mode s → ∃ t, stepIn mode s = .next t ∧ InvIn mode t)

/-- Every state the host can bring about, by a reset with any font, loading, setting keys and stepping, on a
machine with either mode of key-wait (assumption log 3), meets the invariant. When the host acts is decisions D1
and D24 (log 20), what it can load decision D26 (log 21), that it may load more than once before the first step
the model's choice (log 31). -/
def Obligations.EveryReachableStateMeetsTheInvariant : Prop :=
  ∀ (mode : KeyWaitMode) (s : State), Reachable mode s → InvIn mode s

/-- Reset: memory is the font and zeros, `pc` is 0x200, every register, timer and stack slot is 0 and every
pixel unlit. The values of `I`, `SP`, `KEY`, `RP` and `WAIT` are decision D17 (assumption log 16), the bytes
of the font decision D16 (log 4); the outputs and the step count are the model's own (logs 1 and 2). -/
def Obligations.ResetStateIsTheSpecs : Prop :=
  (∀ a : Nat, a < 80 → Memory.read State.reset.mem a = fontTable.getD a 0) ∧
  (∀ a : Nat, 80 ≤ a → a < 4096 → Memory.read State.reset.mem a = 0) ∧
  (∀ r : Nibble, State.reg State.reset r = 0) ∧ State.reset.pc = 0x200 ∧
  (∀ k : Fin 16, State.reset.stack[k] = 0) ∧ State.reset.sp.val = 0 ∧ State.reset.index = 0 ∧
  (∀ p : Nat, p < 2048 → State.pixel State.reset p = false) ∧ State.reset.dt = 0 ∧ State.reset.st = 0 ∧
  (∀ k : Nat, k < 16 → State.reset.key.getLsbD k = false) ∧ State.reset.rp = false ∧
  State.reset.wait = none ∧ State.reset.beep = false ∧ State.reset.diag = none

/-- Load: byte `j` of an image of at most 3584 bytes goes to `0x200 + j`, every other byte and everything else
stays; a longer image is refused (decision D26, assumption log 21). -/
def Obligations.LoadCopiesTheImageTo0x200 : Prop :=
  ∀ (image : List Byte) (s : State),
    (image.length ≤ 3584 → ∃ t, State.load image s = .next t ∧
      (∀ j (h : j < image.length), Memory.read t.mem (0x200 + j) = image[j]) ∧
      OnlyMem 0x200 image.length s t) ∧
    (3584 < image.length → State.load image s = .refused .imageTooLong)

/-! ## Register, logic and arithmetic instructions (spec/41_register_logic.md) -/

/-- `6xkk` LD Vx,kk: `V[x]` becomes the immediate, any other register, `VF` among them, and everything else
stays; and the spec's example word. -/
def Obligations.LdVxKkLoadsTheImmediate : Prop :=
  (∀ (x : Nibble) (kk : Byte) (s : State), ∃ t, exec (.ldVxKk x kk) s = .next t ∧
    State.reg t x = kk ∧ OnlyRegs [x] s t) ∧
  decode 0x6A2C = .ok (.ldVxKk 0xA 0x2C)

/-- `7xkk` ADD Vx,kk: the sum modulo 256; `VF` only if it is the destination (decision D12, assumption
log 11; the instruction's meaning is assumption log 14). -/
def Obligations.AddVxKkWrapsAndWritesNoFlag : Prop :=
  ∀ (x : Nibble) (kk : Byte) (s : State), ∃ t, exec (.addVxKk x kk) s = .next t ∧
    (State.reg t x).toNat = ((State.reg s x).toNat + kk.toNat) % 256 ∧ OnlyRegs [x] s t

/-- `8xy0` LD Vx,Vy: `V[x]` becomes `V[y]`, nothing else changes, and with `x = y` nothing at all; and the
spec's example word. -/
def Obligations.LdVxVyCopiesTheRegister : Prop :=
  (∀ (x y : Nibble) (s : State), ∃ t, exec (.ldVxVy x y) s = .next t ∧
    State.reg t x = State.reg s y ∧ OnlyRegs [x] s t) ∧
  (∀ (x : Nibble) (s : State), exec (.ldVxVy x x) s = .next s) ∧
  decode 0x8120 = .ok (.ldVxVy 1 2)

/-- `8xy1` OR, `8xy2` AND, `8xy3` XOR, bit by bit; `VF` only if it is the destination (decision D12,
assumption log 11). -/
def Obligations.BitwiseLogicWritesOnlyTheDestination : Prop :=
  ∀ (x y : Nibble) (s : State),
    (∃ t, exec (.orVxVy x y) s = .next t ∧ OnlyRegs [x] s t ∧ ∀ b < 8,
      (State.reg t x).getLsbD b = ((State.reg s x).getLsbD b || (State.reg s y).getLsbD b)) ∧
    (∃ t, exec (.andVxVy x y) s = .next t ∧ OnlyRegs [x] s t ∧ ∀ b < 8,
      (State.reg t x).getLsbD b = ((State.reg s x).getLsbD b && (State.reg s y).getLsbD b)) ∧
    (∃ t, exec (.xorVxVy x y) s = .next t ∧ OnlyRegs [x] s t ∧ ∀ b < 8,
      (State.reg t x).getLsbD b = ((State.reg s x).getLsbD b ^^ (State.reg s y).getLsbD b))

/-- `8xy4` ADD Vx,Vy: the sum modulo 256 and the carry in `VF`; with `x = 0xF` the carry stays (decision D11,
assumption log 9). -/
def Obligations.AddVxVySetsSumAndCarry : Prop :=
  ∀ (x y : Nibble) (s : State), ∃ t, exec (.addVxVy x y) s = .next t ∧
    (x ≠ 0xF → (State.reg t x).toNat = ((State.reg s x).toNat + (State.reg s y).toNat) % 256) ∧
    (State.reg t 0xF).toNat = (if (State.reg s x).toNat + (State.reg s y).toNat > 255 then 1 else 0) ∧
    OnlyRegs [x, 0xF] s t

/-- `8xy5` SUB Vx,Vy: the difference modulo 256, and `VF` 1 exactly when the minuend is strictly greater; with
`x = 0xF` the flag stays (decision D11, assumption log 9). -/
def Obligations.SubVxVySetsDifferenceAndStrictFlag : Prop :=
  ∀ (x y : Nibble) (s : State), ∃ t, exec (.subVxVy x y) s = .next t ∧
    (x ≠ 0xF → (State.reg t x).toNat =
      if (State.reg s x).toNat ≥ (State.reg s y).toNat then (State.reg s x).toNat - (State.reg s y).toNat
      else (State.reg s x).toNat + 256 - (State.reg s y).toNat) ∧
    (State.reg t 0xF).toNat = (if (State.reg s x).toNat > (State.reg s y).toNat then 1 else 0) ∧
    OnlyRegs [x, 0xF] s t

/-- `8xy7` SUBN Vx,Vy: `V[y] - V[x]` modulo 256, and `VF` 1 exactly when `V[x] >= V[y]`, the source's own
convention; with `x = 0xF` the flag stays (decision D11, assumption log 9). -/
def Obligations.SubnVxVySetsReversedDifferenceAndFlag : Prop :=
  ∀ (x y : Nibble) (s : State), ∃ t, exec (.subnVxVy x y) s = .next t ∧
    (x ≠ 0xF → (State.reg t x).toNat =
      if (State.reg s y).toNat ≥ (State.reg s x).toNat then (State.reg s y).toNat - (State.reg s x).toNat
      else (State.reg s y).toNat + 256 - (State.reg s x).toNat) ∧
    (State.reg t 0xF).toNat = (if (State.reg s x).toNat ≥ (State.reg s y).toNat then 1 else 0) ∧
    OnlyRegs [x, 0xF] s t

/-- `8xy6` SHR and `8xyE` SHL shift `V[x]` in place by one, whatever `y` is (decision D10, assumption log 10),
and `VF` is the bit shifted out; no other register and nothing else changes; with `x = 0xF` the flag stays
(decision D11, assumption log 9). -/
def Obligations.ShiftsByOneKeepTheBitInVF : Prop :=
  ∀ (x y : Nibble) (s : State),
    (∃ t, exec (.shrVx x y) s = .next t ∧
      (x ≠ 0xF → (State.reg t x).toNat = (State.reg s x).toNat / 2) ∧
      (State.reg t 0xF).toNat = (State.reg s x).toNat % 2 ∧ OnlyRegs [x, 0xF] s t) ∧
    (∃ t, exec (.shlVx x y) s = .next t ∧
      (x ≠ 0xF → (State.reg t x).toNat = (State.reg s x).toNat * 2 % 256) ∧
      (State.reg t 0xF).toNat = (State.reg s x).toNat / 128 ∧ OnlyRegs [x, 0xF] s t)

/-- `Cxkk` RND Vx,kk: the draw of the step, whatever byte it is (a free value, decision D13, assumption log 2),
AND the immediate, bit by bit; no other register and nothing else changes. The instruction's meaning is
assumption log 14. -/
def Obligations.RndMasksTheDraw : Prop :=
  ∀ (x : Nibble) (kk : Byte) (s : State), ∃ t, exec (.rndVxKk x kk) s = .next t ∧
    (∀ b < 8, (State.reg t x).getLsbD b = ((Config.rnd s.stepNo).getLsbD b && kk.getLsbD b)) ∧
    OnlyRegs [x] s t

/-- The same register twice: LD, OR and AND change nothing, XOR gives 0, and ADD, SUB and SUBN give what the
spec's table of aliasing says, the flag last (decision D11, assumption log 9). That OR and AND write no flag is
decision D12, assumption log 11. -/
def Obligations.SameRegisterTwice : Prop :=
  ∀ (x : Nibble) (s : State),
    exec (.ldVxVy x x) s = .next s ∧ exec (.orVxVy x x) s = .next s ∧ exec (.andVxVy x x) s = .next s ∧
    (∃ t, exec (.xorVxVy x x) s = .next t ∧ State.reg t x = 0) ∧
    (∃ t, exec (.addVxVy x x) s = .next t ∧
      (x ≠ 0xF → (State.reg t x).toNat = 2 * (State.reg s x).toNat % 256) ∧
      (State.reg t 0xF = 1 ↔ (State.reg s x).toNat ≥ 128)) ∧
    (∃ t, exec (.subVxVy x x) s = .next t ∧ State.reg t x = 0 ∧ State.reg t 0xF = 0) ∧
    (∃ t, exec (.subnVxVy x x) s = .next t ∧ (x ≠ 0xF → State.reg t x = 0) ∧ State.reg t 0xF = 1)

/-! ## Control flow (spec/42_control_flow.md) -/

/-- `1nnn` JP nnn: `pc` becomes the 12-bit address, zero-extended, whatever its parity (decision D18, assumption
log 23); nothing else changes; and the spec's example word (assumption log 14). -/
def Obligations.JpGoesToTheAddress : Prop :=
  (∀ (nnn : Addr) (s : State), ∃ t, exec (.jp nnn) s = .next t ∧ t.pc.toNat = nnn.toNat ∧ OnlyPc s t) ∧
  decode 0x1234 = .ok (.jp 0x234)

/-- `Bnnn` JP V0,nnn: the sum in 16 bits (decision D27, assumption log 25), which never wraps. -/
def Obligations.JpV0AddsRegisterZero : Prop :=
  ∀ (nnn : Addr) (s : State), ∃ t, exec (.jpV0Nnn nnn) s = .next t ∧
    t.pc.toNat = nnn.toNat + (State.reg s 0).toNat ∧ OnlyPc s t

/-- `2nnn` CALL nnn on a stack that is not full: the advanced `pc` in the free slot, `SP` one more, `pc` the
address, nothing else changed. On a full stack: the diagnostic and nothing else (decisions D6 and D7,
assumption log 7). -/
def Obligations.CallPushesOrOverflows : Prop :=
  ∀ (nnn : Addr) (s : State),
    (∀ h : s.sp.val < 16, ∃ t, exec (.call nnn) s = .next t ∧
      t.stack[s.sp.val] = s.pc ∧ t.sp.val = s.sp.val + 1 ∧ t.pc.toNat = nnn.toNat ∧
      (∀ k : Fin 16, k.val ≠ s.sp.val → t.stack[k] = s.stack[k]) ∧ MemKept s t ∧
      t = { s with stack := t.stack, sp := t.sp, pc := t.pc }) ∧
    (s.sp.val = 16 → ∃ t d, exec (.call nnn) s = .next t ∧ t = { s with diag := some d } ∧
      d.kind = .stackOverflow ∧ d.word.toNat = 0x2000 + nnn.toNat ∧ d.addr + 2 = s.pc ∧ MemKept s t)

/-- `00EE` RET on a stack that is not empty: `SP` one less and `pc` the value popped, the slot keeping its
contents. On an empty stack: the diagnostic and nothing else (decisions D6 and D7, assumption log 7; the
four ignored bits of the word show in the diagnostic). -/
def Obligations.RetPopsOrUnderflows : Prop :=
  ∀ (ign : Nibble) (s : State),
    (∀ h : 0 < s.sp.val, ∃ t, exec (.ret ign) s = .next t ∧
      t.sp.val = s.sp.val - 1 ∧ t.pc = s.stack[s.sp.val - 1]'(by omega) ∧ MemKept s t ∧
      t = { s with sp := t.sp, pc := t.pc }) ∧
    (s.sp.val = 0 → ∃ t d, exec (.ret ign) s = .next t ∧ t = { s with diag := some d } ∧
      d.kind = .stackUnderflow ∧ d.word.toNat = 0x00EE + 256 * ign.toNat ∧ d.addr + 2 = s.pc ∧ MemKept s t)

/-- The round trip: a CALL on a stack that is not full, and then a RET, restore `pc` to the instruction after
the call and `SP` to its depth before it; only the slot used, which keeps what was pushed, differs (decision D7,
assumption log 7). -/
def Obligations.RetUndoesCall : Prop :=
  ∀ (nnn : Addr) (ign : Nibble) (s : State) (h : s.sp.val < 16),
    ∃ t u, exec (.call nnn) s = .next t ∧ exec (.ret ign) t = .next u ∧
      u.pc = s.pc ∧ u.sp = s.sp ∧ u.stack[s.sp.val] = s.pc ∧
      (∀ k : Fin 16, k.val ≠ s.sp.val → u.stack[k] = s.stack[k]) ∧ u = { s with stack := u.stack }

/-- `3xkk` SE Vx,kk and `4xkk` SNE Vx,kk: 2 more on the advanced `pc`, modulo 65536, when the register equals
the immediate (SE) or differs from it (SNE), else nothing; and the spec's example words. -/
def Obligations.SkipsOnAnImmediate : Prop :=
  (∀ (x : Nibble) (kk : Byte) (s : State),
    (∃ t, exec (.seVxKk x kk) s = .next t ∧ OnlyPc s t ∧
      t.pc.toNat = if (State.reg s x).toNat = kk.toNat then (s.pc.toNat + 2) % 65536 else s.pc.toNat) ∧
    (∃ t, exec (.sneVxKk x kk) s = .next t ∧ OnlyPc s t ∧
      t.pc.toNat = if (State.reg s x).toNat ≠ kk.toNat then (s.pc.toNat + 2) % 65536 else s.pc.toNat)) ∧
  decode 0x312A = .ok (.seVxKk 1 0x2A) ∧ decode 0x412A = .ok (.sneVxKk 1 0x2A)

/-- `5xy?` SE Vx,Vy and `9xy?` SNE Vx,Vy: 2 more on the advanced `pc`, modulo 65536, when the two registers are
equal (SE) or differ (SNE), else nothing, whatever the low nibble is (decision D9, assumption log 8). -/
def Obligations.SkipsOnTwoRegisters : Prop :=
  ∀ (x y ign : Nibble) (s : State),
    (∃ t, exec (.seVxVy x y ign) s = .next t ∧ OnlyPc s t ∧
      t.pc.toNat = if (State.reg s x).toNat = (State.reg s y).toNat then (s.pc.toNat + 2) % 65536
        else s.pc.toNat) ∧
    (∃ t, exec (.sneVxVy x y ign) s = .next t ∧ OnlyPc s t ∧
      t.pc.toNat = if (State.reg s x).toNat ≠ (State.reg s y).toNat then (s.pc.toNat + 2) % 65536
        else s.pc.toNat)

/-- `Ex9E` SKP Vx and `ExA1` SKNP Vx: 2 more on the advanced `pc`, modulo 65536, when the key of the low nibble
of `V[x]` is pressed (SKP) or is not (SKNP), else nothing (decision D14, assumption log 13; the instructions'
meaning is assumption log 14). -/
def Obligations.SkipsOnAKey : Prop :=
  ∀ (x : Nibble) (s : State),
    (∃ t, exec (.skpVx x) s = .next t ∧ OnlyPc s t ∧
      t.pc.toNat = if s.key.getLsbD ((State.reg s x).toNat % 16) = true then (s.pc.toNat + 2) % 65536
        else s.pc.toNat) ∧
    (∃ t, exec (.sknpVx x) s = .next t ∧ OnlyPc s t ∧
      t.pc.toNat = if s.key.getLsbD ((State.reg s x).toNat % 16) = false then (s.pc.toNat + 2) % 65536
        else s.pc.toNat)

/-! ## Framebuffer (spec/43_draw.md) -/

/-- `00E0` CLS: every pixel unlit and `RP` set, whatever the ignored bits are (decision D8, assumption log 8);
`VF` and everything else is as it was; and the word the source prints. -/
def Obligations.ClsUnlightsEveryPixel : Prop :=
  (∀ (ign : Nibble) (s : State), ∃ t, exec (.cls ign) s = .next t ∧
    (∀ p : Nat, p < 2048 → State.pixel t p = false) ∧ t.rp = true ∧ RegsKept [] s t ∧ MemKept s t ∧
    t = { s with fb := t.fb, rp := t.rp }) ∧
  decode 0x00E0 = .ok (.cls 0)

/-- `Dxyn` DRW is the compositor: every pixel is XORed with the sprite bit that lands on it, wrapping on both
axes, and `VF` becomes 1 if some sprite bit and its pixel were both 1, else 0, also for `n = 0`; `RP` is
set; with `x` or `y` 0xF the coordinate is the old `VF` (decision D22, assumption log 9). -/
def Obligations.DrwIsTheXorCompositor : Prop :=
  ∀ (x y n : Nibble) (s : State), ∃ t, exec (.drwVxVyN x y n) s = .next t ∧
    (∀ row < 32, ∀ col < 64, State.pixel t (row * 64 + col) =
      (State.pixel s (row * 64 + col) ^^ spriteBit s x y n row col)) ∧
    ((∃ row < 32, ∃ col < 64, spriteBit s x y n row col = true ∧ State.pixel s (row * 64 + col) = true) →
      State.reg t 0xF = 1) ∧
    ((¬ ∃ row < 32, ∃ col < 64, spriteBit s x y n row col = true ∧ State.pixel s (row * 64 + col) = true) →
      State.reg t 0xF = 0) ∧
    t.rp = true ∧ RegsKept [0xF] s t ∧ MemKept s t ∧ t = { s with v := t.v, fb := t.fb, rp := t.rp }

/-- The same sprite drawn twice at the same place (the coordinates not in `VF`) restores the framebuffer, and
the second draw reports a collision exactly when some pixel under a set sprite bit was unlit before the
first. -/
def Obligations.DrawingTwiceRestoresTheScreen : Prop :=
  ∀ (x y n : Nibble) (s : State), x ≠ 0xF → y ≠ 0xF →
    ∃ t u, exec (.drwVxVyN x y n) s = .next t ∧ exec (.drwVxVyN x y n) t = .next u ∧ u.fb = s.fb ∧
      (State.reg u 0xF = 1 ↔
        ∃ row < 32, ∃ col < 64, spriteBit s x y n row col = true ∧ State.pixel s (row * 64 + col) = false)

/-! ## Index register, timers, key-wait, BCD, block transfers (spec/44_timer_memory_bcd.md) -/

/-- `Annn` LD I,nnn: the 12-bit address, zero-extended; nothing else changes; and the spec's example word. The
instruction's meaning is assumption log 14. -/
def Obligations.LdILoadsTheAddress : Prop :=
  (∀ (nnn : Addr) (s : State), ∃ t, exec (.ldINnn nnn) s = .next t ∧
    t.index.toNat = nnn.toNat ∧ RegsKept [] s t ∧ MemKept s t ∧ t = { s with index := t.index }) ∧
  decode 0xA300 = .ok (.ldINnn 0x300)

/-- `Fx1E` ADD I,Vx: the sum modulo 65536, `VF` not written (decision D12, assumption log 11). -/
def Obligations.AddIVxWrapsAt65536 : Prop :=
  ∀ (x : Nibble) (s : State), ∃ t, exec (.addIVx x) s = .next t ∧
    t.index.toNat = (s.index.toNat + (State.reg s x).toNat) % 65536 ∧ RegsKept [] s t ∧ MemKept s t ∧
    t = { s with index := t.index }

/-- `Fx29` LD F,Vx: `I` becomes five times the low nibble of `V[x]`, whatever memory holds, and nothing else
changes; and the spec's example word. -/
def Obligations.LdFPointsAtTheGlyph : Prop :=
  (∀ (x : Nibble) (s : State), ∃ t, exec (.ldFVx x) s = .next t ∧
    t.index.toNat = 5 * ((State.reg s x).toNat % 16) ∧ RegsKept [] s t ∧ MemKept s t ∧
    t = { s with index := t.index }) ∧
  decode 0xF329 = .ok (.ldFVx 3)

/-- `Fx07` LD Vx,DT reads `DT` as it stands at execute and leaves it for the tick; in the whole step the
register gets the value before the tick and `DT` then counts (decision D21, assumption log 18); and the spec's
example word (assumption log 14). -/
def Obligations.LdVxDtReadsBeforeTheTick : Prop :=
  (∀ (x : Nibble) (s : State), ∃ t, exec (.ldVxDt x) s = .next t ∧ State.reg t x = s.dt ∧ OnlyRegs [x] s t) ∧
  (∀ (x : Nibble) (s : State), runs s = some (.ldVxDt x) → ∃ t, step s = .next t ∧
    State.reg t x = s.dt ∧ t.dt.toNat = s.dt.toNat - 1) ∧
  decode 0xF507 = .ok (.ldVxDt 5)

/-- `Fx15` LD DT,Vx and `Fx18` LD ST,Vx write the timer; the tick of the same step counts from the value
written, and a sound timer written with 1 beeps in that very step (decision D21, assumption log 18). -/
def Obligations.TimersAreLoadedFromARegister : Prop :=
  ∀ (x : Nibble) (s : State),
    (∃ t, exec (.ldDtVx x) s = .next t ∧ t.dt = State.reg s x ∧ RegsKept [] s t ∧ MemKept s t ∧
      t = { s with dt := t.dt }) ∧
    (∃ t, exec (.ldStVx x) s = .next t ∧ t.st = State.reg s x ∧ RegsKept [] s t ∧ MemKept s t ∧
      t = { s with st := t.st }) ∧
    (runs s = some (.ldDtVx x) → ∃ t, step s = .next t ∧ t.dt.toNat = (State.reg s x).toNat - 1) ∧
    (runs s = some (.ldStVx x) → ∃ t, step s = .next t ∧ t.st.toNat = (State.reg s x).toNat - 1 ∧
      (t.beep = true ↔ State.reg s x = 1))

/-- `Fx0A` LD Vx,K in the default mode (decision D5, assumption log 3): the diagnostic `UnimplementedOpcode`
with the instruction's word and address, and nothing else. -/
def Obligations.KeyWaitIsAnUnimplementedNoOp : Prop :=
  ∀ (x : Nibble) (s : State), ∃ t d, exec (.ldVxK x) s = .next t ∧ t = { s with diag := some d } ∧
    d.kind = .unimplementedOpcode ∧ d.word.toNat = 0xF00A + 256 * x.toNat ∧ d.addr + 2 = s.pc ∧ MemKept s t

/-- The optional mode `wait` of key-wait (decision D5, assumption log 3): `Fx0A` begins the wait with no
diagnostic; while a wait is under way a step runs no instruction and leaves `pc` alone; with no key pressed it
only ticks; with a key pressed the least pressed key's number goes to the register and the wait ends; the
timers count either way, and nothing else changes. -/
def Obligations.KeyWaitInTheWaitMode : Prop :=
  ∀ (r : Nibble) (s : State),
    (∃ t, execKeyWait .wait r s = .next t ∧ t = { s with wait := some r }) ∧
    (s.wait = some r → (∀ k < 16, s.key.getLsbD k = false) → ∃ t, step s = .next t ∧
      t.dt.toNat = s.dt.toNat - 1 ∧ t.st.toNat = s.st.toNat - 1 ∧ t.diag = none ∧ t.rp = false ∧
      t = { s with dt := t.dt, st := t.st, rp := t.rp, beep := t.beep, diag := t.diag, stepNo := t.stepNo }) ∧
    (∀ k < 16, s.wait = some r → s.key.getLsbD k = true → (∀ j < k, s.key.getLsbD j = false) →
      ∃ t, step s = .next t ∧ (State.reg t r).toNat = k ∧ t.wait = none ∧ t.pc = s.pc ∧
        t.dt.toNat = s.dt.toNat - 1 ∧ t.st.toNat = s.st.toNat - 1 ∧ t.diag = none ∧ t.rp = false ∧
        RegsKept [r] s t ∧ MemKept s t ∧
        t = { s with
          v := t.v, wait := t.wait, dt := t.dt, st := t.st, rp := t.rp, beep := t.beep, diag := t.diag
          stepNo := t.stepNo })

/-- `Fx33` LD B,Vx: the hundreds, tens and ones of `V[x]` at `I`, `I + 1` and `I + 2`, each address reduced
modulo 4096 (decision D2, assumption log 6); every other byte and everything else is as it was. -/
def Obligations.LdBStoresTheDecimalDigits : Prop :=
  ∀ (x : Nibble) (s : State), ∃ t, exec (.ldBVx x) s = .next t ∧
    (Memory.read t.mem s.index.toNat).toNat = (State.reg s x).toNat / 100 ∧
    (Memory.read t.mem (s.index.toNat + 1)).toNat = (State.reg s x).toNat / 10 % 10 ∧
    (Memory.read t.mem (s.index.toNat + 2)).toNat = (State.reg s x).toNat % 10 ∧
    RegsKept [] s t ∧ OnlyMem s.index.toNat 3 s t

/-- `Fx55` LD [I],Vx: `V[k]` at `I + k` for `k` from 0 to `x`, each address reduced modulo 4096 (decision D2,
assumption log 6); every other byte, `I` and everything else is as it was (decision D15, assumption
log 12). -/
def Obligations.BlockStoreCopiesRegistersToMemory : Prop :=
  ∀ (x : Nibble) (s : State), ∃ t, exec (.ldMemVx x) s = .next t ∧
    (∀ k : Nibble, k.toNat ≤ x.toNat → Memory.read t.mem (s.index.toNat + k.toNat) = State.reg s k) ∧
    RegsKept [] s t ∧ OnlyMem s.index.toNat (x.toNat + 1) s t

/-- `Fx65` LD Vx,[I]: the byte at `I + k` into `V[k]` for `k` from 0 to `x`; the registers above `x`, `I` and
everything else is as it was (decision D15, assumption log 12). -/
def Obligations.BlockLoadCopiesMemoryToRegisters : Prop :=
  ∀ (x : Nibble) (s : State), ∃ t, exec (.ldVxMem x) s = .next t ∧
    (∀ k : Nibble, k.toNat ≤ x.toNat → State.reg t k = Memory.read s.mem (s.index.toNat + k.toNat)) ∧
    (∀ k : Nibble, x.toNat < k.toNat → State.reg t k = State.reg s k) ∧ MemKept s t ∧ t = { s with v := t.v }

/-- A block store and then the block load of the same registers changes no register, and the whole is the
store alone (decisions D2 and D15, assumption logs 6 and 12). -/
def Obligations.BlockLoadAfterBlockStoreIsTheStore : Prop :=
  ∀ (x : Nibble) (s : State), ∃ t, exec (.ldMemVx x) s = .next t ∧ exec (.ldVxMem x) t = .next t

/-- A block store at the address of the next instruction is what the next step fetches: `V[0]` is the high
byte of its word and `V[1]` the low one (decision D23, assumption log 28). -/
def Obligations.StoredCodeIsFetchedNext : Prop :=
  ∀ (x : Nibble) (s : State), 1 ≤ x.toNat → s.index = s.pc → ∃ t, exec (.ldMemVx x) s = .next t ∧
    (State.fetchWord t).toNat = (State.reg s 0).toNat * 256 + (State.reg s 1).toNat

/-! ## The parameters FONT and KEY_WAIT_MODE (spec/00_scope.md R8) -/

/-- Reset with any font: memory is that font in 0..79 and zeros, every other component is as after the reset with
the default font, the invariant holds in either mode of key-wait, and with the default font the whole is
`State.reset`. The font is the spec's open parameter (decision D16, assumption log 4). -/
def Obligations.ResetTakesAnyFont : Prop :=
  (∀ font : Font,
    (∀ a (h : a < 80), Memory.read (State.resetWith font).mem a = font[a]) ∧
    (∀ a, 80 ≤ a → a < 4096 → Memory.read (State.resetWith font).mem a = 0) ∧
    State.resetWith font = { State.reset with mem := (State.resetWith font).mem } ∧
    ∀ mode : KeyWaitMode, InvIn mode (State.resetWith font)) ∧
  State.resetWith defaultFont = State.reset

/-- The step with `KEY_WAIT_MODE` as an argument (decision D5, assumption log 3): with `noop` it is `step`; a step
that does not run `Fx0A` is the same in both modes, also one of a key-wait under way and one of an unrecognised
word; and with `wait` a step that runs `Fx0A` advances `pc`, sets `WAIT` to the register, emits no diagnostic,
clears `RP` and ticks, and nothing else changes but the model's own count of steps (log 2). -/
def Obligations.KeyWaitModeIsAnArgumentOfTheStep : Prop :=
  (∀ s : State, stepIn .noop s = step s) ∧
  (∀ (mode : KeyWaitMode) (s : State), (∀ x, runs s ≠ some (.ldVxK x)) → stepIn mode s = step s) ∧
  (∀ (x : Nibble) (s : State), runs s = some (.ldVxK x) → stepIn .wait s = .next { s with
    pc := BitVec.ofNat 16 (s.pc.toNat + 2)
    wait := some x
    rp := false
    diag := none
    dt := BitVec.ofNat 8 (s.dt.toNat - 1)
    st := BitVec.ofNat 8 (s.st.toNat - 1)
    beep := decide (s.st.toNat = 1)
    stepNo := s.stepNo + 1 })
end

