-- ==== Sys2Proof/Laws/Decode.lean ====
section
/-! SUPPORT. The laws of the layouts (spec/30_encoding.md R71, R72): the bits of a packed word, its fields,
a word packed from its own fields, the masks, and the two bytes of a word. -/

namespace Sys2Proof

/-! ### Bits of a packed word -/

theorem getLsbD_packNnn (op : Nibble) (nnn : Addr) (i : Nat) :
    (packNnn op nnn).getLsbD i = if i < 12 then nnn.getLsbD i else op.getLsbD (i - 12) := by
  simp only [packNnn, BitVec.getLsbD_append]

theorem getLsbD_packXkk (op x : Nibble) (kk : Byte) (i : Nat) :
    (packXkk op x kk).getLsbD i
      = if i < 8 then kk.getLsbD i else if i < 12 then x.getLsbD (i - 8) else op.getLsbD (i - 12) := by
  simp only [packXkk, BitVec.getLsbD_append]
  rcases lt_or_ge i 8 with h | h
  · simp [h]
  · rcases lt_or_ge i 12 with h' | h'
    · simp [Nat.not_lt.mpr h, h', show i - 8 < 4 by omega]
    · simp [Nat.not_lt.mpr h, Nat.not_lt.mpr h', show ¬ i - 8 < 4 by omega, show i - 8 - 4 = i - 12 by omega]

theorem getLsbD_packXyn (op x y n : Nibble) (i : Nat) :
    (packXyn op x y n).getLsbD i
      = if i < 4 then n.getLsbD i else if i < 8 then y.getLsbD (i - 4)
        else if i < 12 then x.getLsbD (i - 8) else op.getLsbD (i - 12) := by
  simp only [packXyn, BitVec.getLsbD_append]
  rcases lt_or_ge i 4 with h | h
  · simp [h, show i < 8 by omega]
  · rcases lt_or_ge i 8 with h' | h'
    · simp [h', Nat.not_lt.mpr h]
    · rcases lt_or_ge i 12 with h'' | h''
      · simp [Nat.not_lt.mpr h, Nat.not_lt.mpr h', h'', show i - 8 < 4 by omega]
      · simp [Nat.not_lt.mpr h, Nat.not_lt.mpr h', Nat.not_lt.mpr h'', show ¬ i - 8 < 4 by omega,
          show i - 8 - 4 = i - 12 by omega]

/-! ### Fields of a packed word -/

@[simp] theorem opField_packNnn (op : Nibble) (nnn : Addr) : opField (packNnn op nnn) = op := by
  apply BitVec.eq_of_getLsbD_eq
  intro i hi
  simp only [opField, BitVec.getLsbD_extractLsb', getLsbD_packNnn]
  simp [hi]

@[simp] theorem nnnField_packNnn (op : Nibble) (nnn : Addr) : nnnField (packNnn op nnn) = nnn := by
  apply BitVec.eq_of_getLsbD_eq
  intro i hi
  simp only [nnnField, BitVec.getLsbD_extractLsb', getLsbD_packNnn]
  simp [hi]

@[simp] theorem opField_packXkk (op x : Nibble) (kk : Byte) : opField (packXkk op x kk) = op := by
  apply BitVec.eq_of_getLsbD_eq
  intro i hi
  simp only [opField, BitVec.getLsbD_extractLsb', getLsbD_packXkk]
  simp [hi, show ¬ 12 + i < 8 by omega]

@[simp] theorem xField_packXkk (op x : Nibble) (kk : Byte) : xField (packXkk op x kk) = x := by
  apply BitVec.eq_of_getLsbD_eq
  intro i hi
  simp only [xField, BitVec.getLsbD_extractLsb', getLsbD_packXkk]
  simp [hi, show 8 + i < 12 by omega]

@[simp] theorem kkField_packXkk (op x : Nibble) (kk : Byte) : kkField (packXkk op x kk) = kk := by
  apply BitVec.eq_of_getLsbD_eq
  intro i hi
  simp only [kkField, BitVec.getLsbD_extractLsb', getLsbD_packXkk]
  simp [hi]

@[simp] theorem opField_packXyn (op x y n : Nibble) : opField (packXyn op x y n) = op := by
  apply BitVec.eq_of_getLsbD_eq
  intro i hi
  simp only [opField, BitVec.getLsbD_extractLsb', getLsbD_packXyn]
  simp [hi, show ¬ 12 + i < 4 by omega, show ¬ 12 + i < 8 by omega]

@[simp] theorem xField_packXyn (op x y n : Nibble) : xField (packXyn op x y n) = x := by
  apply BitVec.eq_of_getLsbD_eq
  intro i hi
  simp only [xField, BitVec.getLsbD_extractLsb', getLsbD_packXyn]
  simp [hi, show ¬ 8 + i < 4 by omega, show 8 + i < 12 by omega]

@[simp] theorem yField_packXyn (op x y n : Nibble) : yField (packXyn op x y n) = y := by
  apply BitVec.eq_of_getLsbD_eq
  intro i hi
  simp only [yField, BitVec.getLsbD_extractLsb', getLsbD_packXyn]
  simp [hi, show 4 + i < 8 by omega]

@[simp] theorem nField_packXyn (op x y n : Nibble) : nField (packXyn op x y n) = n := by
  apply BitVec.eq_of_getLsbD_eq
  intro i hi
  simp only [nField, BitVec.getLsbD_extractLsb', getLsbD_packXyn]
  simp [hi]

/-! ### A word packed from its own fields -/

theorem packNnn_fields (w : Word) : packNnn (opField w) (nnnField w) = w := by
  apply BitVec.eq_of_getLsbD_eq
  intro i hi
  simp only [opField, nnnField, BitVec.getLsbD_extractLsb', getLsbD_packNnn]
  interval_cases i <;> simp

theorem packXkk_fields (w : Word) : packXkk (opField w) (xField w) (kkField w) = w := by
  apply BitVec.eq_of_getLsbD_eq
  intro i hi
  simp only [opField, xField, kkField, BitVec.getLsbD_extractLsb', getLsbD_packXkk]
  interval_cases i <;> simp

theorem packXyn_fields (w : Word) : packXyn (opField w) (xField w) (yField w) (nField w) = w := by
  apply BitVec.eq_of_getLsbD_eq
  intro i hi
  simp only [opField, xField, yField, nField, BitVec.getLsbD_extractLsb', getLsbD_packXyn]
  interval_cases i <;> simp

/-! ### The masks of the opcode map (R76) -/

theorem packNnn_mask (op : Nibble) (nnn : Addr) : packNnn op nnn &&& 0xF000 = packNnn op 0 := by
  apply BitVec.eq_of_getLsbD_eq
  intro i hi
  simp only [BitVec.getLsbD_and, getLsbD_packNnn]
  interval_cases i <;> simp

theorem packXkk_mask_op (op x : Nibble) (kk : Byte) : packXkk op x kk &&& 0xF000 = packXkk op 0 0 := by
  apply BitVec.eq_of_getLsbD_eq
  intro i hi
  simp only [BitVec.getLsbD_and, getLsbD_packXkk]
  interval_cases i <;> simp

theorem packXkk_mask_sub (op x : Nibble) (kk : Byte) : packXkk op x kk &&& 0xF0FF = packXkk op 0 kk := by
  apply BitVec.eq_of_getLsbD_eq
  intro i hi
  simp only [BitVec.getLsbD_and, getLsbD_packXkk]
  interval_cases i <;> simp

theorem packXyn_mask_op (op x y n : Nibble) : packXyn op x y n &&& 0xF000 = packXyn op 0 0 0 := by
  apply BitVec.eq_of_getLsbD_eq
  intro i hi
  simp only [BitVec.getLsbD_and, getLsbD_packXyn]
  interval_cases i <;> simp

theorem packXyn_mask_sub (op x y n : Nibble) : packXyn op x y n &&& 0xF00F = packXyn op 0 0 n := by
  apply BitVec.eq_of_getLsbD_eq
  intro i hi
  simp only [BitVec.getLsbD_and, getLsbD_packXyn]
  interval_cases i <;> simp

/-! ### The two bytes of a word (spec/20_memory.md R54) -/

theorem getLsbD_wordOfBytes (hi lo : Byte) (i : Nat) :
    (wordOfBytes hi lo).getLsbD i = if i < 8 then lo.getLsbD i else hi.getLsbD (i - 8) := by
  simp only [wordOfBytes, BitVec.getLsbD_append]

@[simp] theorem wordOfBytes_bytes (w : Word) : wordOfBytes (highByte w) (lowByte w) = w := by
  apply BitVec.eq_of_getLsbD_eq
  intro i hi
  simp only [getLsbD_wordOfBytes, highByte, lowByte, BitVec.getLsbD_extractLsb']
  interval_cases i <;> simp

@[simp] theorem highByte_wordOfBytes (hi lo : Byte) : highByte (wordOfBytes hi lo) = hi := by
  apply BitVec.eq_of_getLsbD_eq
  intro i h
  simp only [highByte, BitVec.getLsbD_extractLsb', getLsbD_wordOfBytes]
  simp [h]

@[simp] theorem lowByte_wordOfBytes (hi lo : Byte) : lowByte (wordOfBytes hi lo) = lo := by
  apply BitVec.eq_of_getLsbD_eq
  intro i h
  simp only [lowByte, BitVec.getLsbD_extractLsb', getLsbD_wordOfBytes]
  simp [h]

end Sys2Proof
end

