-- ==== Sys2Proof/Laws/Memory.lean ====
section
/-! SUPPORT. The laws of memory: a read after a write, a read elsewhere, and that every operation keeps
the canonical form (spec/20_memory.md R53, R55 to R57). -/

namespace Sys2Proof.Machine

theorem portAddr_lt (a : Nat) : portAddr a < memSize := Nat.mod_lt _ (by decide)

/-! ### One byte -/

theorem lookup_erase_self (m : Memory) (a : Nat) : Memory.lookup (Memory.erase m a) a = resetByte a := by
  induction m with
  | nil => rfl
  | cons c m ih =>
    by_cases h : c.1 = a
    · simpa [Memory.erase, h] using ih
    · simpa [Memory.erase, h, Memory.lookup] using ih

theorem lookup_erase_ne (m : Memory) {a b : Nat} (h : b ≠ a) :
    Memory.lookup (Memory.erase m a) b = Memory.lookup m b := by
  induction m with
  | nil => rfl
  | cons c m ih =>
    obtain ⟨k, u⟩ := c
    unfold Memory.erase at ih ⊢
    by_cases hk : k = a
    · have hb : k ≠ b := fun e => h (e.symm.trans hk)
      rw [List.filter_cons_of_neg (by simpa using hk), ih]
      simp [Memory.lookup, hb]
    · rw [List.filter_cons_of_pos (by simpa using hk)]
      simp only [Memory.lookup, ih]

theorem lookup_place_ne (m : Memory) {a b : Nat} (v : Byte) (h : b ≠ a) :
    Memory.lookup (Memory.place m a v) b = Memory.lookup m b := by
  induction m with
  | nil => simp [Memory.place, Memory.lookup, Ne.symm h]
  | cons c m ih =>
    obtain ⟨k, u⟩ := c
    simp only [Memory.place]
    split
    · simp [Memory.lookup, Ne.symm h]
    · simp only [Memory.lookup]; split <;> simp_all

theorem lookup_place_self (m : Memory) (a : Nat) (v : Byte) (h : ∀ c ∈ m, c.1 ≠ a) :
    Memory.lookup (Memory.place m a v) a = v := by
  induction m with
  | nil => simp [Memory.place, Memory.lookup]
  | cons c m ih =>
    obtain ⟨k, u⟩ := c
    simp only [Memory.place]
    split
    · simp [Memory.lookup]
    · have hk : k ≠ a := h (k, u) (by simp)
      simp only [Memory.lookup, hk, if_false]
      exact ih (fun c hc => h c (by simp [hc]))

theorem mem_erase_ne {m : Memory} {a : Nat} {c : Host.Cell} (h : c ∈ Memory.erase m a) : c.1 ≠ a := by
  simpa [Memory.erase] using (List.mem_filter.mp h).2

/-- What any byte reads after one write: the value at the written address, reduced by the port, and the
old byte everywhere else. -/
theorem read_write (m : Memory) (a b : Nat) (v : Byte) :
    Memory.read (Memory.write m a v) b = if portAddr a = portAddr b then v else Memory.read m b := by
  unfold Memory.read Memory.write
  split
  case isTrue hv =>
    split
    · next e => rw [← e, lookup_erase_self, hv]
    · next e => exact lookup_erase_ne m (Ne.symm e)
  case isFalse hv =>
    split
    · next e => rw [← e]; exact lookup_place_self _ _ v (fun c hc => mem_erase_ne hc)
    · next e => rw [lookup_place_ne _ v (Ne.symm e), lookup_erase_ne m (Ne.symm e)]

/-- An address and its reduction read the same byte (R55). -/
@[simp] theorem read_mod (m : Memory) (a : Nat) : Memory.read m (a % 4096) = Memory.read m a := by
  simp [Memory.read, portAddr, memSize]

/-! ### Consecutive bytes -/

@[simp] theorem length_readBytes (m : Memory) (a n : Nat) : (Memory.readBytes m a n).length = n := by
  simp [Memory.readBytes]

theorem getElem_readBytes (m : Memory) (a n k : Nat) (h : k < (Memory.readBytes m a n).length) :
    (Memory.readBytes m a n)[k] = Memory.read m (a + k) := by
  simp [Memory.readBytes]

theorem getD_readBytes (m : Memory) (a n k : Nat) (d : Byte) :
    (Memory.readBytes m a n).getD k d = if k < n then Memory.read m (a + k) else d := by
  by_cases h : k < n <;> simp [Memory.readBytes, List.getD, h]

/-- The first address written is the last in sight of no other write of the same run, so long as the run
does not go round memory. -/
theorem read_writeBytes_other (m : Memory) (a b : Nat) (bs : List Byte)
    (h : ∀ k < bs.length, portAddr (a + k) ≠ portAddr b) :
    Memory.read (Memory.writeBytes m a bs) b = Memory.read m b := by
  induction bs generalizing m a with
  | nil => rfl
  | cons v bs ih =>
    rw [Memory.writeBytes, ih, read_write, if_neg]
    · simpa using h 0 (by simp)
    · intro k hk
      have := h (k + 1) (by simpa using hk)
      rwa [show a + (k + 1) = a + 1 + k by omega] at this

theorem read_writeBytes_at (m : Memory) (a : Nat) (bs : List Byte) (hl : bs.length ≤ 4096) (k : Nat)
    (hk : k < bs.length) : Memory.read (Memory.writeBytes m a bs) (a + k) = bs[k] := by
  induction bs generalizing m a k with
  | nil => simp at hk
  | cons v bs ih =>
    simp only [List.length_cons] at hl hk
    rw [Memory.writeBytes]
    cases k with
    | zero =>
      rw [read_writeBytes_other, read_write]
      · simp
      · intro j hj
        simp only [portAddr, memSize]
        omega
    | succ k =>
      rw [show a + (k + 1) = a + 1 + k by omega, ih _ _ (by omega) k (by omega)]
      simp

/-! ### Reset -/

theorem initialByte_of_lt (font : Font) {a : Nat} (h : a < 80) : initialByte font a = font[a] := by
  simp [initialByte, h]

theorem initialByte_of_le (font : Font) {a : Nat} (h : 80 ≤ a) : initialByte font a = 0 := by
  simp [initialByte, Nat.not_lt.mpr h]

/-- An unlisted byte, by the table of the default font. -/
theorem resetByte_eq (a : Nat) : resetByte a = fontTable.getD a 0 := rfl

/-- What any byte reads after a reset with a font. -/
theorem read_resetWith (font : Font) {a : Nat} (ha : a < 4096) :
    Memory.read (State.resetWith font).mem a = initialByte font a := by
  by_cases h : a < 80
  · have hr := read_writeBytes_at State.reset.mem 0 font.toList (by simp) a (by simpa using h)
    rw [Nat.zero_add, Vector.getElem_toList] at hr
    rw [initialByte_of_lt font h, State.resetWith, hr]
  · have hk : ∀ k < font.toList.length, portAddr (0 + k) ≠ portAddr a := by
      intro k hk
      simp only [Vector.length_toList] at hk
      simp only [portAddr, memSize]
      omega
    rw [initialByte_of_le font (by omega), State.resetWith, read_writeBytes_other State.reset.mem 0 a font.toList hk]
    exact (congrArg resetByte (Nat.mod_eq_of_lt ha)).trans (initialByte_of_le defaultFont (by omega))

/-- The reset with the default font is the reset. -/
theorem resetWith_defaultFont : State.resetWith defaultFont = State.reset := by decide

/-! ### The canonical form -/

theorem wfFrom_weaken {lo lo' : Nat} {m : Memory} (h : lo' ≤ lo) (hm : Memory.wfFrom lo m = true) :
    Memory.wfFrom lo' m = true := by
  cases m with
  | nil => rfl
  | cons c m =>
    simp only [Memory.wfFrom, Bool.and_eq_true, decide_eq_true_eq] at hm ⊢
    exact ⟨⟨⟨by omega, hm.1.1.2⟩, hm.1.2⟩, hm.2⟩

theorem wfFrom_erase {lo : Nat} {m : Memory} (a : Nat) (hm : Memory.wfFrom lo m = true) :
    Memory.wfFrom lo (Memory.erase m a) = true := by
  induction m generalizing lo with
  | nil => rfl
  | cons c m ih =>
    simp only [Memory.wfFrom, Bool.and_eq_true, decide_eq_true_eq] at hm
    by_cases h : c.1 = a
    · simpa [Memory.erase, h] using wfFrom_weaken (by omega) (ih hm.2)
    · have e : Memory.erase (c :: m) a = c :: Memory.erase m a := by simp [Memory.erase, h]
      rw [e]
      simp only [Memory.wfFrom, Bool.and_eq_true, decide_eq_true_eq]
      exact ⟨hm.1, ih hm.2⟩

theorem wfFrom_place {lo : Nat} {m : Memory} {a : Nat} {v : Byte} (hm : Memory.wfFrom lo m = true)
    (hlo : lo ≤ a) (ha : a < memSize) (hv : v ≠ resetByte a) (hn : ∀ c ∈ m, c.1 ≠ a) :
    Memory.wfFrom lo (Memory.place m a v) = true := by
  induction m generalizing lo with
  | nil => simp [Memory.place, Memory.wfFrom, hlo, ha, hv]
  | cons c m ih =>
    obtain ⟨b, u⟩ := c
    simp only [Memory.wfFrom, Bool.and_eq_true, decide_eq_true_eq] at hm
    have hb : b ≠ a := hn (b, u) (by simp)
    simp only [Memory.place]
    split
    case isTrue h =>
      simp only [Memory.wfFrom, Bool.and_eq_true, decide_eq_true_eq, bne_iff_ne]
      exact ⟨⟨⟨hlo, ha⟩, hv⟩, ⟨⟨⟨by omega, hm.1.1.2⟩, by simpa using hm.1.2⟩, hm.2⟩⟩
    case isFalse h =>
      simp only [Memory.wfFrom, Bool.and_eq_true, decide_eq_true_eq]
      exact ⟨hm.1, ih hm.2 (by omega) (fun c hc => hn c (by simp [hc]))⟩

/-- Every write keeps the canonical form. -/
theorem wf_write {m : Memory} (a : Nat) (v : Byte) (hm : Memory.wf m = true) :
    Memory.wf (Memory.write m a v) = true := by
  unfold Memory.write
  split
  · exact wfFrom_erase _ hm
  · next hv =>
    exact wfFrom_place (wfFrom_erase _ hm) (Nat.zero_le _) (portAddr_lt a) hv (fun c hc => mem_erase_ne hc)

theorem wf_writeBytes {m : Memory} (a : Nat) (bs : List Byte) (hm : Memory.wf m = true) :
    Memory.wf (Memory.writeBytes m a bs) = true := by
  induction bs generalizing m a with
  | nil => exact hm
  | cons v bs ih => exact ih _ (wf_write a v hm)

/-- Memory at reset has the canonical form. -/
theorem wf_reset : Memory.wf State.reset.mem = true := rfl

/-- Memory after a reset with any font has the canonical form. -/
theorem wf_resetWith (font : Font) : Memory.wf (State.resetWith font).mem = true := wf_writeBytes _ _ wf_reset

/-- The host's load keeps the canonical form. -/
theorem wf_load {image : List Byte} {s t : State} (h : State.load image s = .next t)
    (hs : Memory.wf s.mem = true) : Memory.wf t.mem = true := by
  unfold State.load at h
  split at h
  · cases h; exact wf_writeBytes _ _ hs
  · cases h

/-- Placing a word where the next step fetches keeps the canonical form. -/
theorem wf_placeWord (s : State) (w : Word) (hs : Memory.wf s.mem = true) :
    Memory.wf (State.placeWord s w).mem = true := wf_writeBytes _ _ hs

end Sys2Proof.Machine
end

