-- ==== Sys2Proof/Laws/State.lean ====
section
/-! SUPPORT. The small laws of State: for every update, one lemma per field, so that no proof unfolds a
record update; and what a register reads after each update. -/

namespace Sys2Proof.Machine

variable (s : State)

/-! ### setReg -/

@[simp] theorem setReg_mem (i : Nibble) (b : Byte) : (State.setReg s i b).mem = s.mem := rfl
@[simp] theorem setReg_v (i : Nibble) (b : Byte) : (State.setReg s i b).v = s.v.set i.toNat b i.isLt := rfl
@[simp] theorem setReg_index (i : Nibble) (b : Byte) : (State.setReg s i b).index = s.index := rfl
@[simp] theorem setReg_pc (i : Nibble) (b : Byte) : (State.setReg s i b).pc = s.pc := rfl
@[simp] theorem setReg_stack (i : Nibble) (b : Byte) : (State.setReg s i b).stack = s.stack := rfl
@[simp] theorem setReg_sp (i : Nibble) (b : Byte) : (State.setReg s i b).sp = s.sp := rfl
@[simp] theorem setReg_fb (i : Nibble) (b : Byte) : (State.setReg s i b).fb = s.fb := rfl
@[simp] theorem setReg_dt (i : Nibble) (b : Byte) : (State.setReg s i b).dt = s.dt := rfl
@[simp] theorem setReg_st (i : Nibble) (b : Byte) : (State.setReg s i b).st = s.st := rfl
@[simp] theorem setReg_key (i : Nibble) (b : Byte) : (State.setReg s i b).key = s.key := rfl
@[simp] theorem setReg_rp (i : Nibble) (b : Byte) : (State.setReg s i b).rp = s.rp := rfl
@[simp] theorem setReg_wait (i : Nibble) (b : Byte) : (State.setReg s i b).wait = s.wait := rfl
@[simp] theorem setReg_beep (i : Nibble) (b : Byte) : (State.setReg s i b).beep = s.beep := rfl
@[simp] theorem setReg_diag (i : Nibble) (b : Byte) : (State.setReg s i b).diag = s.diag := rfl
@[simp] theorem setReg_stepNo (i : Nibble) (b : Byte) : (State.setReg s i b).stepNo = s.stepNo := rfl

/-! ### setFlag -/

@[simp] theorem setFlag_mem (f : Bool) : (State.setFlag s f).mem = s.mem := rfl
@[simp] theorem setFlag_v (f : Bool) : (State.setFlag s f).v = s.v.set 15 (flagByte f) := rfl
@[simp] theorem setFlag_index (f : Bool) : (State.setFlag s f).index = s.index := rfl
@[simp] theorem setFlag_pc (f : Bool) : (State.setFlag s f).pc = s.pc := rfl
@[simp] theorem setFlag_stack (f : Bool) : (State.setFlag s f).stack = s.stack := rfl
@[simp] theorem setFlag_sp (f : Bool) : (State.setFlag s f).sp = s.sp := rfl
@[simp] theorem setFlag_fb (f : Bool) : (State.setFlag s f).fb = s.fb := rfl
@[simp] theorem setFlag_dt (f : Bool) : (State.setFlag s f).dt = s.dt := rfl
@[simp] theorem setFlag_st (f : Bool) : (State.setFlag s f).st = s.st := rfl
@[simp] theorem setFlag_key (f : Bool) : (State.setFlag s f).key = s.key := rfl
@[simp] theorem setFlag_rp (f : Bool) : (State.setFlag s f).rp = s.rp := rfl
@[simp] theorem setFlag_wait (f : Bool) : (State.setFlag s f).wait = s.wait := rfl
@[simp] theorem setFlag_beep (f : Bool) : (State.setFlag s f).beep = s.beep := rfl
@[simp] theorem setFlag_diag (f : Bool) : (State.setFlag s f).diag = s.diag := rfl
@[simp] theorem setFlag_stepNo (f : Bool) : (State.setFlag s f).stepNo = s.stepNo := rfl

/-! ### setRegFlag -/

@[simp] theorem setRegFlag_mem (x : Nibble) (b : Byte) (f : Bool) : (State.setRegFlag s x b f).mem = s.mem := rfl
@[simp] theorem setRegFlag_v (x : Nibble) (b : Byte) (f : Bool) : (State.setRegFlag s x b f).v = (s.v.set x.toNat b x.isLt).set 15 (flagByte f) := rfl
@[simp] theorem setRegFlag_index (x : Nibble) (b : Byte) (f : Bool) : (State.setRegFlag s x b f).index = s.index := rfl
@[simp] theorem setRegFlag_pc (x : Nibble) (b : Byte) (f : Bool) : (State.setRegFlag s x b f).pc = s.pc := rfl
@[simp] theorem setRegFlag_stack (x : Nibble) (b : Byte) (f : Bool) : (State.setRegFlag s x b f).stack = s.stack := rfl
@[simp] theorem setRegFlag_sp (x : Nibble) (b : Byte) (f : Bool) : (State.setRegFlag s x b f).sp = s.sp := rfl
@[simp] theorem setRegFlag_fb (x : Nibble) (b : Byte) (f : Bool) : (State.setRegFlag s x b f).fb = s.fb := rfl
@[simp] theorem setRegFlag_dt (x : Nibble) (b : Byte) (f : Bool) : (State.setRegFlag s x b f).dt = s.dt := rfl
@[simp] theorem setRegFlag_st (x : Nibble) (b : Byte) (f : Bool) : (State.setRegFlag s x b f).st = s.st := rfl
@[simp] theorem setRegFlag_key (x : Nibble) (b : Byte) (f : Bool) : (State.setRegFlag s x b f).key = s.key := rfl
@[simp] theorem setRegFlag_rp (x : Nibble) (b : Byte) (f : Bool) : (State.setRegFlag s x b f).rp = s.rp := rfl
@[simp] theorem setRegFlag_wait (x : Nibble) (b : Byte) (f : Bool) : (State.setRegFlag s x b f).wait = s.wait := rfl
@[simp] theorem setRegFlag_beep (x : Nibble) (b : Byte) (f : Bool) : (State.setRegFlag s x b f).beep = s.beep := rfl
@[simp] theorem setRegFlag_diag (x : Nibble) (b : Byte) (f : Bool) : (State.setRegFlag s x b f).diag = s.diag := rfl
@[simp] theorem setRegFlag_stepNo (x : Nibble) (b : Byte) (f : Bool) : (State.setRegFlag s x b f).stepNo = s.stepNo := rfl

/-! ### pushPc -/

@[simp] theorem pushPc_mem (h : s.sp.val < 16) : (State.pushPc s h).mem = s.mem := rfl
@[simp] theorem pushPc_v (h : s.sp.val < 16) : (State.pushPc s h).v = s.v := rfl
@[simp] theorem pushPc_index (h : s.sp.val < 16) : (State.pushPc s h).index = s.index := rfl
@[simp] theorem pushPc_pc (h : s.sp.val < 16) : (State.pushPc s h).pc = s.pc := rfl
@[simp] theorem pushPc_stack (h : s.sp.val < 16) : (State.pushPc s h).stack = s.stack.set s.sp.val s.pc h := rfl
@[simp] theorem pushPc_sp (h : s.sp.val < 16) : (State.pushPc s h).sp = ⟨s.sp.val + 1, by omega⟩ := rfl
@[simp] theorem pushPc_fb (h : s.sp.val < 16) : (State.pushPc s h).fb = s.fb := rfl
@[simp] theorem pushPc_dt (h : s.sp.val < 16) : (State.pushPc s h).dt = s.dt := rfl
@[simp] theorem pushPc_st (h : s.sp.val < 16) : (State.pushPc s h).st = s.st := rfl
@[simp] theorem pushPc_key (h : s.sp.val < 16) : (State.pushPc s h).key = s.key := rfl
@[simp] theorem pushPc_rp (h : s.sp.val < 16) : (State.pushPc s h).rp = s.rp := rfl
@[simp] theorem pushPc_wait (h : s.sp.val < 16) : (State.pushPc s h).wait = s.wait := rfl
@[simp] theorem pushPc_beep (h : s.sp.val < 16) : (State.pushPc s h).beep = s.beep := rfl
@[simp] theorem pushPc_diag (h : s.sp.val < 16) : (State.pushPc s h).diag = s.diag := rfl
@[simp] theorem pushPc_stepNo (h : s.sp.val < 16) : (State.pushPc s h).stepNo = s.stepNo := rfl

/-! ### popPc -/

@[simp] theorem popPc_mem (h : 0 < s.sp.val) : (State.popPc s h).mem = s.mem := rfl
@[simp] theorem popPc_v (h : 0 < s.sp.val) : (State.popPc s h).v = s.v := rfl
@[simp] theorem popPc_index (h : 0 < s.sp.val) : (State.popPc s h).index = s.index := rfl
@[simp] theorem popPc_pc (h : 0 < s.sp.val) : (State.popPc s h).pc = s.stack[s.sp.val - 1]'(by omega) := rfl
@[simp] theorem popPc_stack (h : 0 < s.sp.val) : (State.popPc s h).stack = s.stack := rfl
@[simp] theorem popPc_sp (h : 0 < s.sp.val) : (State.popPc s h).sp = ⟨s.sp.val - 1, by omega⟩ := rfl
@[simp] theorem popPc_fb (h : 0 < s.sp.val) : (State.popPc s h).fb = s.fb := rfl
@[simp] theorem popPc_dt (h : 0 < s.sp.val) : (State.popPc s h).dt = s.dt := rfl
@[simp] theorem popPc_st (h : 0 < s.sp.val) : (State.popPc s h).st = s.st := rfl
@[simp] theorem popPc_key (h : 0 < s.sp.val) : (State.popPc s h).key = s.key := rfl
@[simp] theorem popPc_rp (h : 0 < s.sp.val) : (State.popPc s h).rp = s.rp := rfl
@[simp] theorem popPc_wait (h : 0 < s.sp.val) : (State.popPc s h).wait = s.wait := rfl
@[simp] theorem popPc_beep (h : 0 < s.sp.val) : (State.popPc s h).beep = s.beep := rfl
@[simp] theorem popPc_diag (h : 0 < s.sp.val) : (State.popPc s h).diag = s.diag := rfl
@[simp] theorem popPc_stepNo (h : 0 < s.sp.val) : (State.popPc s h).stepNo = s.stepNo := rfl

/-! ### advancePc -/

@[simp] theorem advancePc_mem : (State.advancePc s).mem = s.mem := rfl
@[simp] theorem advancePc_v : (State.advancePc s).v = s.v := rfl
@[simp] theorem advancePc_index : (State.advancePc s).index = s.index := rfl
@[simp] theorem advancePc_pc : (State.advancePc s).pc = s.pc + 2 := rfl
@[simp] theorem advancePc_stack : (State.advancePc s).stack = s.stack := rfl
@[simp] theorem advancePc_sp : (State.advancePc s).sp = s.sp := rfl
@[simp] theorem advancePc_fb : (State.advancePc s).fb = s.fb := rfl
@[simp] theorem advancePc_dt : (State.advancePc s).dt = s.dt := rfl
@[simp] theorem advancePc_st : (State.advancePc s).st = s.st := rfl
@[simp] theorem advancePc_key : (State.advancePc s).key = s.key := rfl
@[simp] theorem advancePc_rp : (State.advancePc s).rp = s.rp := rfl
@[simp] theorem advancePc_wait : (State.advancePc s).wait = s.wait := rfl
@[simp] theorem advancePc_beep : (State.advancePc s).beep = s.beep := rfl
@[simp] theorem advancePc_diag : (State.advancePc s).diag = s.diag := rfl
@[simp] theorem advancePc_stepNo : (State.advancePc s).stepNo = s.stepNo := rfl

/-! ### emitDiag -/

@[simp] theorem emitDiag_mem (k : DiagKind) (w : Word) : (State.emitDiag s k w).mem = s.mem := rfl
@[simp] theorem emitDiag_v (k : DiagKind) (w : Word) : (State.emitDiag s k w).v = s.v := rfl
@[simp] theorem emitDiag_index (k : DiagKind) (w : Word) : (State.emitDiag s k w).index = s.index := rfl
@[simp] theorem emitDiag_pc (k : DiagKind) (w : Word) : (State.emitDiag s k w).pc = s.pc := rfl
@[simp] theorem emitDiag_stack (k : DiagKind) (w : Word) : (State.emitDiag s k w).stack = s.stack := rfl
@[simp] theorem emitDiag_sp (k : DiagKind) (w : Word) : (State.emitDiag s k w).sp = s.sp := rfl
@[simp] theorem emitDiag_fb (k : DiagKind) (w : Word) : (State.emitDiag s k w).fb = s.fb := rfl
@[simp] theorem emitDiag_dt (k : DiagKind) (w : Word) : (State.emitDiag s k w).dt = s.dt := rfl
@[simp] theorem emitDiag_st (k : DiagKind) (w : Word) : (State.emitDiag s k w).st = s.st := rfl
@[simp] theorem emitDiag_key (k : DiagKind) (w : Word) : (State.emitDiag s k w).key = s.key := rfl
@[simp] theorem emitDiag_rp (k : DiagKind) (w : Word) : (State.emitDiag s k w).rp = s.rp := rfl
@[simp] theorem emitDiag_wait (k : DiagKind) (w : Word) : (State.emitDiag s k w).wait = s.wait := rfl
@[simp] theorem emitDiag_beep (k : DiagKind) (w : Word) : (State.emitDiag s k w).beep = s.beep := rfl
@[simp] theorem emitDiag_diag (k : DiagKind) (w : Word) : (State.emitDiag s k w).diag = some (Diag.mk k w (s.pc - 2)) := rfl
@[simp] theorem emitDiag_stepNo (k : DiagKind) (w : Word) : (State.emitDiag s k w).stepNo = s.stepNo := rfl

/-! ### beginStep -/

@[simp] theorem beginStep_mem : (State.beginStep s).mem = s.mem := rfl
@[simp] theorem beginStep_v : (State.beginStep s).v = s.v := rfl
@[simp] theorem beginStep_index : (State.beginStep s).index = s.index := rfl
@[simp] theorem beginStep_pc : (State.beginStep s).pc = s.pc := rfl
@[simp] theorem beginStep_stack : (State.beginStep s).stack = s.stack := rfl
@[simp] theorem beginStep_sp : (State.beginStep s).sp = s.sp := rfl
@[simp] theorem beginStep_fb : (State.beginStep s).fb = s.fb := rfl
@[simp] theorem beginStep_dt : (State.beginStep s).dt = s.dt := rfl
@[simp] theorem beginStep_st : (State.beginStep s).st = s.st := rfl
@[simp] theorem beginStep_key : (State.beginStep s).key = s.key := rfl
@[simp] theorem beginStep_rp : (State.beginStep s).rp = false := rfl
@[simp] theorem beginStep_wait : (State.beginStep s).wait = s.wait := rfl
@[simp] theorem beginStep_beep : (State.beginStep s).beep = false := rfl
@[simp] theorem beginStep_diag : (State.beginStep s).diag = none := rfl
@[simp] theorem beginStep_stepNo : (State.beginStep s).stepNo = s.stepNo := rfl

/-! ### tick -/

@[simp] theorem tick_mem : (State.tick s).mem = s.mem := rfl
@[simp] theorem tick_v : (State.tick s).v = s.v := rfl
@[simp] theorem tick_index : (State.tick s).index = s.index := rfl
@[simp] theorem tick_pc : (State.tick s).pc = s.pc := rfl
@[simp] theorem tick_stack : (State.tick s).stack = s.stack := rfl
@[simp] theorem tick_sp : (State.tick s).sp = s.sp := rfl
@[simp] theorem tick_fb : (State.tick s).fb = s.fb := rfl
@[simp] theorem tick_dt : (State.tick s).dt = countDown s.dt := rfl
@[simp] theorem tick_st : (State.tick s).st = countDown s.st := rfl
@[simp] theorem tick_key : (State.tick s).key = s.key := rfl
@[simp] theorem tick_rp : (State.tick s).rp = s.rp := rfl
@[simp] theorem tick_wait : (State.tick s).wait = s.wait := rfl
@[simp] theorem tick_beep : (State.tick s).beep = (s.st == 1) := rfl
@[simp] theorem tick_diag : (State.tick s).diag = s.diag := rfl
@[simp] theorem tick_stepNo : (State.tick s).stepNo = s.stepNo := rfl

/-! ### endStep -/

@[simp] theorem endStep_mem : (State.endStep s).mem = s.mem := rfl
@[simp] theorem endStep_v : (State.endStep s).v = s.v := rfl
@[simp] theorem endStep_index : (State.endStep s).index = s.index := rfl
@[simp] theorem endStep_pc : (State.endStep s).pc = s.pc := rfl
@[simp] theorem endStep_stack : (State.endStep s).stack = s.stack := rfl
@[simp] theorem endStep_sp : (State.endStep s).sp = s.sp := rfl
@[simp] theorem endStep_fb : (State.endStep s).fb = s.fb := rfl
@[simp] theorem endStep_dt : (State.endStep s).dt = countDown s.dt := rfl
@[simp] theorem endStep_st : (State.endStep s).st = countDown s.st := rfl
@[simp] theorem endStep_key : (State.endStep s).key = s.key := rfl
@[simp] theorem endStep_rp : (State.endStep s).rp = s.rp := rfl
@[simp] theorem endStep_wait : (State.endStep s).wait = s.wait := rfl
@[simp] theorem endStep_beep : (State.endStep s).beep = (s.st == 1) := rfl
@[simp] theorem endStep_diag : (State.endStep s).diag = s.diag := rfl
@[simp] theorem endStep_stepNo : (State.endStep s).stepNo = s.stepNo + 1 := rfl

/-! ### placeWord -/

@[simp] theorem placeWord_mem (w : Word) : (State.placeWord s w).mem = Memory.writeBytes s.mem s.pc.toNat [highByte w, lowByte w] := rfl
@[simp] theorem placeWord_v (w : Word) : (State.placeWord s w).v = s.v := rfl
@[simp] theorem placeWord_index (w : Word) : (State.placeWord s w).index = s.index := rfl
@[simp] theorem placeWord_pc (w : Word) : (State.placeWord s w).pc = s.pc := rfl
@[simp] theorem placeWord_stack (w : Word) : (State.placeWord s w).stack = s.stack := rfl
@[simp] theorem placeWord_sp (w : Word) : (State.placeWord s w).sp = s.sp := rfl
@[simp] theorem placeWord_fb (w : Word) : (State.placeWord s w).fb = s.fb := rfl
@[simp] theorem placeWord_dt (w : Word) : (State.placeWord s w).dt = s.dt := rfl
@[simp] theorem placeWord_st (w : Word) : (State.placeWord s w).st = s.st := rfl
@[simp] theorem placeWord_key (w : Word) : (State.placeWord s w).key = s.key := rfl
@[simp] theorem placeWord_rp (w : Word) : (State.placeWord s w).rp = s.rp := rfl
@[simp] theorem placeWord_wait (w : Word) : (State.placeWord s w).wait = none := rfl
@[simp] theorem placeWord_beep (w : Word) : (State.placeWord s w).beep = s.beep := rfl
@[simp] theorem placeWord_diag (w : Word) : (State.placeWord s w).diag = s.diag := rfl
@[simp] theorem placeWord_stepNo (w : Word) : (State.placeWord s w).stepNo = s.stepNo := rfl

/-! ### setKeys -/

@[simp] theorem setKeys_mem (k : BitVec 16) : (State.setKeys k s).mem = s.mem := rfl
@[simp] theorem setKeys_v (k : BitVec 16) : (State.setKeys k s).v = s.v := rfl
@[simp] theorem setKeys_index (k : BitVec 16) : (State.setKeys k s).index = s.index := rfl
@[simp] theorem setKeys_pc (k : BitVec 16) : (State.setKeys k s).pc = s.pc := rfl
@[simp] theorem setKeys_stack (k : BitVec 16) : (State.setKeys k s).stack = s.stack := rfl
@[simp] theorem setKeys_sp (k : BitVec 16) : (State.setKeys k s).sp = s.sp := rfl
@[simp] theorem setKeys_fb (k : BitVec 16) : (State.setKeys k s).fb = s.fb := rfl
@[simp] theorem setKeys_dt (k : BitVec 16) : (State.setKeys k s).dt = s.dt := rfl
@[simp] theorem setKeys_st (k : BitVec 16) : (State.setKeys k s).st = s.st := rfl
@[simp] theorem setKeys_key (k : BitVec 16) : (State.setKeys k s).key = k := rfl
@[simp] theorem setKeys_rp (k : BitVec 16) : (State.setKeys k s).rp = s.rp := rfl
@[simp] theorem setKeys_wait (k : BitVec 16) : (State.setKeys k s).wait = s.wait := rfl
@[simp] theorem setKeys_beep (k : BitVec 16) : (State.setKeys k s).beep = s.beep := rfl
@[simp] theorem setKeys_diag (k : BitVec 16) : (State.setKeys k s).diag = s.diag := rfl
@[simp] theorem setKeys_stepNo (k : BitVec 16) : (State.setKeys k s).stepNo = s.stepNo := rfl

/-! ### skipIf: `pc` alone -/

@[simp] theorem skipIf_pc (c : Bool) : (State.skipIf s c).pc = if c then s.pc + 2 else s.pc := by
  cases c <;> rfl
@[simp] theorem skipIf_mem (c : Bool) : (State.skipIf s c).mem = s.mem := by cases c <;> rfl
@[simp] theorem skipIf_v (c : Bool) : (State.skipIf s c).v = s.v := by cases c <;> rfl
@[simp] theorem skipIf_index (c : Bool) : (State.skipIf s c).index = s.index := by cases c <;> rfl
@[simp] theorem skipIf_stack (c : Bool) : (State.skipIf s c).stack = s.stack := by cases c <;> rfl
@[simp] theorem skipIf_sp (c : Bool) : (State.skipIf s c).sp = s.sp := by cases c <;> rfl
@[simp] theorem skipIf_fb (c : Bool) : (State.skipIf s c).fb = s.fb := by cases c <;> rfl
@[simp] theorem skipIf_dt (c : Bool) : (State.skipIf s c).dt = s.dt := by cases c <;> rfl
@[simp] theorem skipIf_st (c : Bool) : (State.skipIf s c).st = s.st := by cases c <;> rfl
@[simp] theorem skipIf_key (c : Bool) : (State.skipIf s c).key = s.key := by cases c <;> rfl
@[simp] theorem skipIf_rp (c : Bool) : (State.skipIf s c).rp = s.rp := by cases c <;> rfl
@[simp] theorem skipIf_wait (c : Bool) : (State.skipIf s c).wait = s.wait := by cases c <;> rfl
@[simp] theorem skipIf_beep (c : Bool) : (State.skipIf s c).beep = s.beep := by cases c <;> rfl
@[simp] theorem skipIf_diag (c : Bool) : (State.skipIf s c).diag = s.diag := by cases c <;> rfl
@[simp] theorem skipIf_stepNo (c : Bool) : (State.skipIf s c).stepNo = s.stepNo := by cases c <;> rfl

/-! ### setRegs: the registers alone -/

theorem setRegs_frame (s : State) (k : Nat) (bs : List Byte) :
    State.setRegs s k bs = { s with v := (State.setRegs s k bs).v } := by
  induction bs generalizing s k with
  | nil => rfl
  | cons b bs ih => rw [State.setRegs, ih]; rfl

@[simp] theorem setRegs_mem (k : Nat) (bs : List Byte) : (State.setRegs s k bs).mem = s.mem := by
  rw [setRegs_frame]
@[simp] theorem setRegs_index (k : Nat) (bs : List Byte) : (State.setRegs s k bs).index = s.index := by
  rw [setRegs_frame]
@[simp] theorem setRegs_pc (k : Nat) (bs : List Byte) : (State.setRegs s k bs).pc = s.pc := by
  rw [setRegs_frame]
@[simp] theorem setRegs_stack (k : Nat) (bs : List Byte) : (State.setRegs s k bs).stack = s.stack := by
  rw [setRegs_frame]
@[simp] theorem setRegs_sp (k : Nat) (bs : List Byte) : (State.setRegs s k bs).sp = s.sp := by
  rw [setRegs_frame]
@[simp] theorem setRegs_fb (k : Nat) (bs : List Byte) : (State.setRegs s k bs).fb = s.fb := by
  rw [setRegs_frame]
@[simp] theorem setRegs_dt (k : Nat) (bs : List Byte) : (State.setRegs s k bs).dt = s.dt := by
  rw [setRegs_frame]
@[simp] theorem setRegs_st (k : Nat) (bs : List Byte) : (State.setRegs s k bs).st = s.st := by
  rw [setRegs_frame]
@[simp] theorem setRegs_key (k : Nat) (bs : List Byte) : (State.setRegs s k bs).key = s.key := by
  rw [setRegs_frame]
@[simp] theorem setRegs_rp (k : Nat) (bs : List Byte) : (State.setRegs s k bs).rp = s.rp := by
  rw [setRegs_frame]
@[simp] theorem setRegs_wait (k : Nat) (bs : List Byte) : (State.setRegs s k bs).wait = s.wait := by
  rw [setRegs_frame]
@[simp] theorem setRegs_beep (k : Nat) (bs : List Byte) : (State.setRegs s k bs).beep = s.beep := by
  rw [setRegs_frame]
@[simp] theorem setRegs_diag (k : Nat) (bs : List Byte) : (State.setRegs s k bs).diag = s.diag := by
  rw [setRegs_frame]
@[simp] theorem setRegs_stepNo (k : Nat) (bs : List Byte) : (State.setRegs s k bs).stepNo = s.stepNo := by
  rw [setRegs_frame]

/-! ### pollKeys: the awaited register and `WAIT` alone -/

theorem pollKeys_frame (s : State) (r : Nibble) :
    State.pollKeys s r = { s with v := (State.pollKeys s r).v, wait := (State.pollKeys s r).wait } := by
  unfold State.pollKeys; split <;> rfl

@[simp] theorem pollKeys_mem (r : Nibble) : (State.pollKeys s r).mem = s.mem := by
  rw [pollKeys_frame]
@[simp] theorem pollKeys_index (r : Nibble) : (State.pollKeys s r).index = s.index := by
  rw [pollKeys_frame]
@[simp] theorem pollKeys_pc (r : Nibble) : (State.pollKeys s r).pc = s.pc := by
  rw [pollKeys_frame]
@[simp] theorem pollKeys_stack (r : Nibble) : (State.pollKeys s r).stack = s.stack := by
  rw [pollKeys_frame]
@[simp] theorem pollKeys_sp (r : Nibble) : (State.pollKeys s r).sp = s.sp := by
  rw [pollKeys_frame]
@[simp] theorem pollKeys_fb (r : Nibble) : (State.pollKeys s r).fb = s.fb := by
  rw [pollKeys_frame]
@[simp] theorem pollKeys_dt (r : Nibble) : (State.pollKeys s r).dt = s.dt := by
  rw [pollKeys_frame]
@[simp] theorem pollKeys_st (r : Nibble) : (State.pollKeys s r).st = s.st := by
  rw [pollKeys_frame]
@[simp] theorem pollKeys_key (r : Nibble) : (State.pollKeys s r).key = s.key := by
  rw [pollKeys_frame]
@[simp] theorem pollKeys_rp (r : Nibble) : (State.pollKeys s r).rp = s.rp := by
  rw [pollKeys_frame]
@[simp] theorem pollKeys_beep (r : Nibble) : (State.pollKeys s r).beep = s.beep := by
  rw [pollKeys_frame]
@[simp] theorem pollKeys_diag (r : Nibble) : (State.pollKeys s r).diag = s.diag := by
  rw [pollKeys_frame]
@[simp] theorem pollKeys_stepNo (r : Nibble) : (State.pollKeys s r).stepNo = s.stepNo := by
  rw [pollKeys_frame]

/-! ### What a register reads after an update -/

/-- Two states with the same registers read the same in every register. -/
theorem reg_congr {s t : State} (h : t.v = s.v) (i : Nibble) : State.reg t i = State.reg s i := by
  simp only [State.reg, h]

theorem reg_setReg (i j : Nibble) (b : Byte) :
    State.reg (State.setReg s i b) j = if i = j then b else State.reg s j := by
  by_cases h : i = j
  · subst h; simp [State.reg]
  · have hn : i.toNat ≠ j.toNat := fun e => h (BitVec.eq_of_toNat_eq e)
    simp [State.reg, Vector.getElem_set_ne, h, hn]

@[simp] theorem reg_setReg_self (i : Nibble) (b : Byte) : State.reg (State.setReg s i b) i = b := by
  simp [reg_setReg]

theorem reg_setReg_ne {i j : Nibble} (b : Byte) (h : i ≠ j) :
    State.reg (State.setReg s i b) j = State.reg s j := by
  simp [reg_setReg, h]

@[simp] theorem reg_setFlag_self (f : Bool) : State.reg (State.setFlag s f) 15#4 = flagByte f :=
  reg_setReg_self s flagReg _

theorem reg_setFlag_ne {j : Nibble} (f : Bool) (h : j ≠ 15#4) :
    State.reg (State.setFlag s f) j = State.reg s j :=
  reg_setReg_ne s _ (fun e => h e.symm)

/-- The flag is what `VF` holds after a flag-writing update, also when the result went to `VF`. -/
@[simp] theorem reg_setRegFlag_flag (x : Nibble) (b : Byte) (f : Bool) :
    State.reg (State.setRegFlag s x b f) 15#4 = flagByte f := reg_setFlag_self _ f

theorem reg_setRegFlag_dest {x : Nibble} (b : Byte) (f : Bool) (h : x ≠ 15#4) :
    State.reg (State.setRegFlag s x b f) x = b := by
  rw [State.setRegFlag, reg_setFlag_ne _ f h, reg_setReg_self]

theorem reg_setRegFlag_ne {x j : Nibble} (b : Byte) (f : Bool) (hx : j ≠ x) (hf : j ≠ 15#4) :
    State.reg (State.setRegFlag s x b f) j = State.reg s j := by
  rw [State.setRegFlag, reg_setFlag_ne _ f hf, reg_setReg_ne _ _ (Ne.symm hx)]

/-- Writing back what a register holds changes nothing. -/
@[simp] theorem setReg_reg (i : Nibble) : State.setReg s i (State.reg s i) = s := by
  simp [State.setReg, State.reg]

/-- What a register reads after `setRegs`: the byte of its place in the list, or its old value. -/
theorem reg_setRegs (s : State) (k : Nat) (bs : List Byte) (hk : k + bs.length ≤ 16) (j : Nibble) :
    State.reg (State.setRegs s k bs) j
      = if k ≤ j.toNat then bs.getD (j.toNat - k) (State.reg s j) else State.reg s j := by
  induction bs generalizing s k with
  | nil => simp [State.setRegs]
  | cons b bs ih =>
    have hj := j.isLt
    have hkj : BitVec.ofNat 4 k = j ↔ k = j.toNat := by
      constructor
      · intro h; rw [← h]; simp; simp at hk; omega
      · intro h; rw [h]; simp
    simp only [List.length_cons] at hk
    rw [State.setRegs, ih _ _ (by omega), reg_setReg]
    by_cases h1 : k = j.toNat
    · simp [h1]
    · by_cases h2 : k + 1 ≤ j.toNat
      · have e : j.toNat - k = (j.toNat - (k + 1)) + 1 := by omega
        have h3 : k ≤ j.toNat := by omega
        simp [hkj, h1, h2, h3, e]
      · have h3 : ¬ k ≤ j.toNat := by omega
        simp [hkj, h1, h2, h3]

end Sys2Proof.Machine
end

