-- ==== Sys2Proof/Laws/Draw.lean ====
section
/-! SUPPORT. The laws of the compositor (spec/43_draw.md R141, R142): what one toggle does to every pixel, and
that the loops toggle a list of pixels one after another. -/

namespace Sys2Proof.Machine

theorem pixelIndex_lt (row col : Nat) : pixelIndex row col < 2048 := by
  unfold pixelIndex; omega

/-- A toggle flips its own pixel and no other. -/
theorem fbPixel_fbToggle (fb : Framebuffer) {p q : Nat} (hp : p < 2048) (hq : q < 2048) :
    fbPixel (fbToggle fb p) q = (fbPixel fb q ^^ decide (q = p)) := by
  unfold fbPixel fbToggle
  by_cases h : p / 64 % 32 = q / 64 % 32
  · have hb : (q % 64 = p % 64) ↔ q = p := by omega
    have hl : q % 64 < 64 := Nat.mod_lt _ (by decide)
    simp only [h, Vector.getElem_set_self, BitVec.getLsbD_xor, BitVec.getLsbD_twoPow]
    by_cases e : q = p
    · subst e; simp [hl]
    · have : p % 64 ≠ q % 64 := fun e' => e (hb.mp e'.symm)
      simp [e, this]
  · have e : q ≠ p := fun e' => h (by rw [e'])
    simp [Vector.getElem_set_ne, h, e]

/-- Every pixel of a blank framebuffer is unlit. -/
theorem fbPixel_blank (p : Nat) : fbPixel (Vector.replicate 32 0) p = false := by
  simp [fbPixel]

/-- Two framebuffers with the same pixels are the same. -/
theorem fb_ext {a b : Framebuffer} (h : ∀ p < 2048, fbPixel a p = fbPixel b p) : a = b := by
  apply Vector.ext
  intro row hrow
  apply BitVec.eq_of_getLsbD_eq
  intro col hcol
  have := h (row * 64 + col) (by omega)
  unfold fbPixel at this
  have e1 : (row * 64 + col) / 64 % 32 = row := by omega
  have e2 : (row * 64 + col) % 64 = col := by omega
  simpa only [e1, e2] using this

/-- The pixels that the set bits of one sprite byte land on, left to right. -/
def bytePixels (b : Byte) (row vx : Nat) : List Nat :=
  ((List.range 8).filter (fun c => b.getLsbD (7 - c))).map (fun c => pixelIndex row (vx + c))

/-- The pixels that the set bits of a sprite land on, row by row. -/
def rowsPixels (vx : Nat) : List Byte → Nat → List Nat
  | [], _ => []
  | b :: bs, row => bytePixels b row vx ++ rowsPixels vx bs (row + 1)

theorem drawByte_eq_toggles (b : Byte) (row vx : Nat) (acc : Framebuffer × Bool) :
    drawByte b row vx acc = (bytePixels b row vx).foldl (fun acc p => togglePixel p acc) acc := by
  simp only [drawByte, bytePixels, List.foldl_map, List.foldl_filter]

theorem drawRows_eq_toggles (vx : Nat) (bs : List Byte) (row : Nat) (acc : Framebuffer × Bool) :
    drawRows vx bs row acc = (rowsPixels vx bs row).foldl (fun acc p => togglePixel p acc) acc := by
  induction bs generalizing row acc with
  | nil => rfl
  | cons b bs ih => simp only [drawRows, rowsPixels, List.foldl_append, ih, drawByte_eq_toggles]

/-- Toggling distinct pixels one after another: each of them flips, no other does, and there is a collision
if there was one before or one of them was lit. -/
theorem toggles_spec (ps : List Nat) (hn : ps.Nodup) (hb : ∀ p ∈ ps, p < 2048) (acc : Framebuffer × Bool) :
    (∀ q < 2048, fbPixel (ps.foldl (fun acc p => togglePixel p acc) acc).1 q
      = (fbPixel acc.1 q ^^ decide (q ∈ ps))) ∧
    (ps.foldl (fun acc p => togglePixel p acc) acc).2 = (acc.2 || ps.any (fun p => fbPixel acc.1 p)) := by
  induction ps generalizing acc with
  | nil => simp
  | cons p ps ih =>
    obtain ⟨hp, hn⟩ := List.nodup_cons.mp hn
    have hpl := hb p (by simp)
    have hbs : ∀ q ∈ ps, q < 2048 := fun q hq => hb q (by simp [hq])
    obtain ⟨ih1, ih2⟩ := ih hn hbs (togglePixel p acc)
    constructor
    · intro q hq
      rw [List.foldl_cons, ih1 q hq]
      simp only [togglePixel, fbPixel_fbToggle _ hpl hq]
      by_cases e : q = p
      · subst e; simp [hp]
      · simp [e]
    · rw [List.foldl_cons, ih2]
      have : ps.any (fun q => fbPixel (togglePixel p acc).1 q) = ps.any (fun q => fbPixel acc.1 q) := by
        apply Bool.eq_iff_iff.mpr
        simp only [List.any_eq_true]
        refine exists_congr fun q => and_congr_right fun hq => ?_
        have : q ≠ p := fun e => hp (e ▸ hq)
        simp [togglePixel, fbPixel_fbToggle _ hpl (hbs q hq), this]
      rw [this]
      simp [togglePixel, Bool.or_assoc]

theorem mem_bytePixels {b : Byte} {row vx p : Nat} :
    p ∈ bytePixels b row vx ↔ ∃ c < 8, b.getLsbD (7 - c) = true ∧ p = pixelIndex row (vx + c) := by
  simp only [bytePixels, List.mem_map, List.mem_filter, List.mem_range]
  constructor
  · rintro ⟨c, ⟨hc, hb⟩, rfl⟩; exact ⟨c, hc, hb, rfl⟩
  · rintro ⟨c, hc, hb, rfl⟩; exact ⟨c, ⟨hc, hb⟩, rfl⟩

theorem mem_rowsPixels {vx : Nat} {bs : List Byte} {row p : Nat} :
    p ∈ rowsPixels vx bs row ↔
      ∃ k, ∃ h : k < bs.length, ∃ c < 8, bs[k].getLsbD (7 - c) = true ∧
        p = pixelIndex (row + k) (vx + c) := by
  induction bs generalizing row with
  | nil => simp [rowsPixels]
  | cons b bs ih =>
    rw [rowsPixels, List.mem_append, mem_bytePixels, ih]
    constructor
    · rintro (⟨c, hc, hb, rfl⟩ | ⟨k, hk, c, hc, hb, rfl⟩)
      · exact ⟨0, by simp, c, hc, hb, rfl⟩
      · exact ⟨k + 1, by simpa using hk, c, hc, by simpa using hb, by rw [show row + 1 + k = row + (k + 1) by omega]⟩
    · rintro ⟨k, hk, c, hc, hb, rfl⟩
      cases k with
      | zero => exact .inl ⟨c, hc, hb, rfl⟩
      | succ k =>
        exact .inr ⟨k, by simpa using hk, c, hc, by simpa using hb,
          by rw [show row + 1 + k = row + (k + 1) by omega]⟩

/-- Two sprite bits land on one pixel only if they are the same bit, rows and columns being fewer than the
framebuffer's. -/
theorem pixelIndex_inj {vy vx k k' c c' : Nat} (hk : k < 32) (hk' : k' < 32) (hc : c < 8) (hc' : c' < 8)
    (h : pixelIndex (vy + k) (vx + c) = pixelIndex (vy + k') (vx + c')) : k = k' ∧ c = c' := by
  unfold pixelIndex at h
  omega

theorem nodup_rowsPixels (vx : Nat) (bs : List Byte) (row : Nat) (h : bs.length ≤ 32) :
    (rowsPixels vx bs row).Nodup := by
  induction bs generalizing row with
  | nil => simp [rowsPixels]
  | cons b bs ih =>
    simp only [List.length_cons] at h
    rw [rowsPixels, List.nodup_append]
    refine ⟨?_, ih _ (by omega), ?_⟩
    · refine List.Nodup.map_on ?_ (List.Nodup.filter _ List.nodup_range)
      intro c hc c' hc' e
      simp only [List.mem_filter, List.mem_range] at hc hc'
      exact (pixelIndex_inj (vy := row) (k := 0) (k' := 0) (by omega) (by omega) hc.1 hc'.1 e).2
    · rintro p hp q hq rfl
      obtain ⟨c, hc, -, e1⟩ := mem_bytePixels.mp hp
      obtain ⟨k, hk, c', hc', -, e2⟩ := mem_rowsPixels.mp hq
      rw [e1, show row + 1 + k = row + (k + 1) by omega] at e2
      have := (pixelIndex_inj (vy := row) (k := 0) (k' := k + 1) (by omega) (by omega) hc hc' e2).1
      omega

end Sys2Proof.Machine
end

