-- ==== Sys2Proof/Laws/PerInstr.lean ====
section
/-! SUPPORT. Per-instruction laws about the syntax: the word that the encoder gives an instruction selects
the instruction's own row of the opcode map (spec/30_encoding.md R76). -/

namespace Sys2Proof.Laws.RowWord

/-- `w & mask = match` for the word of the instruction and the row it belongs to. -/
def Statement (i : Instr) : Prop := encode i &&& opcodeMask i = opcodeMatch i

theorem cls (ign : Nibble) : Statement (.cls ign) :=
  (packXkk_mask_sub ..).trans rfl

theorem ret (ign : Nibble) : Statement (.ret ign) :=
  (packXkk_mask_sub ..).trans rfl

theorem jp (nnn : Addr) : Statement (.jp nnn) :=
  (packNnn_mask ..).trans rfl

theorem call (nnn : Addr) : Statement (.call nnn) :=
  (packNnn_mask ..).trans rfl

theorem seVxKk (x : Nibble) (kk : Byte) : Statement (.seVxKk x kk) :=
  (packXkk_mask_op ..).trans rfl

theorem sneVxKk (x : Nibble) (kk : Byte) : Statement (.sneVxKk x kk) :=
  (packXkk_mask_op ..).trans rfl

theorem seVxVy (x : Nibble) (y : Nibble) (ign : Nibble) : Statement (.seVxVy x y ign) :=
  (packXyn_mask_op ..).trans rfl

theorem ldVxKk (x : Nibble) (kk : Byte) : Statement (.ldVxKk x kk) :=
  (packXkk_mask_op ..).trans rfl

theorem addVxKk (x : Nibble) (kk : Byte) : Statement (.addVxKk x kk) :=
  (packXkk_mask_op ..).trans rfl

theorem ldVxVy (x : Nibble) (y : Nibble) : Statement (.ldVxVy x y) :=
  (packXyn_mask_sub ..).trans rfl

theorem orVxVy (x : Nibble) (y : Nibble) : Statement (.orVxVy x y) :=
  (packXyn_mask_sub ..).trans rfl

theorem andVxVy (x : Nibble) (y : Nibble) : Statement (.andVxVy x y) :=
  (packXyn_mask_sub ..).trans rfl

theorem xorVxVy (x : Nibble) (y : Nibble) : Statement (.xorVxVy x y) :=
  (packXyn_mask_sub ..).trans rfl

theorem addVxVy (x : Nibble) (y : Nibble) : Statement (.addVxVy x y) :=
  (packXyn_mask_sub ..).trans rfl

theorem subVxVy (x : Nibble) (y : Nibble) : Statement (.subVxVy x y) :=
  (packXyn_mask_sub ..).trans rfl

theorem shrVx (x : Nibble) (y : Nibble) : Statement (.shrVx x y) :=
  (packXyn_mask_sub ..).trans rfl

theorem subnVxVy (x : Nibble) (y : Nibble) : Statement (.subnVxVy x y) :=
  (packXyn_mask_sub ..).trans rfl

theorem shlVx (x : Nibble) (y : Nibble) : Statement (.shlVx x y) :=
  (packXyn_mask_sub ..).trans rfl

theorem sneVxVy (x : Nibble) (y : Nibble) (ign : Nibble) : Statement (.sneVxVy x y ign) :=
  (packXyn_mask_op ..).trans rfl

theorem ldINnn (nnn : Addr) : Statement (.ldINnn nnn) :=
  (packNnn_mask ..).trans rfl

theorem jpV0Nnn (nnn : Addr) : Statement (.jpV0Nnn nnn) :=
  (packNnn_mask ..).trans rfl

theorem rndVxKk (x : Nibble) (kk : Byte) : Statement (.rndVxKk x kk) :=
  (packXkk_mask_op ..).trans rfl

theorem drwVxVyN (x : Nibble) (y : Nibble) (n : Nibble) : Statement (.drwVxVyN x y n) :=
  (packXyn_mask_op ..).trans rfl

theorem skpVx (x : Nibble) : Statement (.skpVx x) :=
  (packXkk_mask_sub ..).trans rfl

theorem sknpVx (x : Nibble) : Statement (.sknpVx x) :=
  (packXkk_mask_sub ..).trans rfl

theorem ldVxDt (x : Nibble) : Statement (.ldVxDt x) :=
  (packXkk_mask_sub ..).trans rfl

theorem ldVxK (x : Nibble) : Statement (.ldVxK x) :=
  (packXkk_mask_sub ..).trans rfl

theorem ldDtVx (x : Nibble) : Statement (.ldDtVx x) :=
  (packXkk_mask_sub ..).trans rfl

theorem ldStVx (x : Nibble) : Statement (.ldStVx x) :=
  (packXkk_mask_sub ..).trans rfl

theorem addIVx (x : Nibble) : Statement (.addIVx x) :=
  (packXkk_mask_sub ..).trans rfl

theorem ldFVx (x : Nibble) : Statement (.ldFVx x) :=
  (packXkk_mask_sub ..).trans rfl

theorem ldBVx (x : Nibble) : Statement (.ldBVx x) :=
  (packXkk_mask_sub ..).trans rfl

theorem ldMemVx (x : Nibble) : Statement (.ldMemVx x) :=
  (packXkk_mask_sub ..).trans rfl

theorem ldVxMem (x : Nibble) : Statement (.ldVxMem x) :=
  (packXkk_mask_sub ..).trans rfl

end Sys2Proof.Laws.RowWord
end

