-- ==== Sys2Proof/Laws/Step.lean ====
section
/-! SUPPORT. The laws of the step: its three cases, that every execute phase answers a next state, and what
the tick does in numbers. Proofs about steps cite these and unfold neither `step` nor `exec`. -/

namespace Sys2Proof.Machine

/-! ### The cases of a step -/

/-- While a key-wait is under way a step polls the keys and ends, whatever executes instructions. -/
theorem stepBy_of_wait (run : Instr → State → Result) {s : State} {r : Nibble} (h : s.wait = some r) :
    stepBy run s = .next (State.endStep (State.pollKeys (State.beginStep s) r)) := by
  simp only [stepBy, beginStep_wait, h, endStepAfter]

/-- A step on a word that decodes: the execute phase of the instruction, then the end of the step. -/
theorem stepBy_of_instr (run : Instr → State → Result) {s : State} {i : Instr} (h : s.wait = none)
    (hd : decode (State.fetchWord s) = .ok i) :
    stepBy run s = endStepAfter (run i (State.advancePc (State.beginStep s))) := by
  have hd' : decode (State.fetchWord (State.beginStep s)) = .ok i := hd
  simp only [stepBy, beginStep_wait, h, hd']

/-- A step on an unrecognised word: the diagnostic, then the end of the step. -/
theorem stepBy_of_unrecognised (run : Instr → State → Result) {s : State} {e : Unrecognised} (h : s.wait = none)
    (hd : decode (State.fetchWord s) = .error e) :
    stepBy run s = .next (State.endStep (State.emitDiag (State.advancePc (State.beginStep s))
      .unrecognizedOpcode (State.fetchWord s))) := by
  have hf : State.fetchWord (State.beginStep s) = State.fetchWord s := rfl
  simp only [stepBy, beginStep_wait, h, hf, hd, execUnrecognised, endStepAfter]

theorem step_of_wait {s : State} {r : Nibble} (h : s.wait = some r) :
    step s = .next (State.endStep (State.pollKeys (State.beginStep s) r)) := stepBy_of_wait exec h

theorem step_of_instr {s : State} {i : Instr} (h : s.wait = none)
    (hd : decode (State.fetchWord s) = .ok i) :
    step s = endStepAfter (exec i (State.advancePc (State.beginStep s))) := stepBy_of_instr exec h hd

theorem step_of_unrecognised {s : State} {e : Unrecognised} (h : s.wait = none)
    (hd : decode (State.fetchWord s) = .error e) :
    step s = .next (State.endStep (State.emitDiag (State.advancePc (State.beginStep s))
      .unrecognizedOpcode (State.fetchWord s))) := stepBy_of_unrecognised exec h hd

/-- Every step is one of the three. -/
theorem step_cases (s : State) :
    (∃ r, s.wait = some r ∧ step s = .next (State.endStep (State.pollKeys (State.beginStep s) r))) ∨
    (∃ i, s.wait = none ∧ decode (State.fetchWord s) = .ok i ∧
      step s = endStepAfter (exec i (State.advancePc (State.beginStep s)))) ∨
    (∃ e, s.wait = none ∧ decode (State.fetchWord s) = .error e ∧
      step s = .next (State.endStep (State.emitDiag (State.advancePc (State.beginStep s))
        .unrecognizedOpcode (State.fetchWord s)))) := by
  cases hw : s.wait with
  | some r => exact .inl ⟨r, rfl, step_of_wait hw⟩
  | none =>
    cases hd : decode (State.fetchWord s) with
    | ok i => exact .inr (.inl ⟨i, rfl, rfl, step_of_instr hw hd⟩)
    | error e => exact .inr (.inr ⟨e, rfl, rfl, step_of_unrecognised hw hd⟩)

/-! ### The parameter `KEY_WAIT_MODE` -/

theorem execIn_keyWait (mode : KeyWaitMode) (x : Nibble) (s : State) :
    execIn mode (.ldVxK x) s = execKeyWait mode x s := rfl

/-- Only the key-wait depends on the mode. -/
theorem execIn_of_ne (mode : KeyWaitMode) {i : Instr} (s : State) (h : ∀ x, i ≠ .ldVxK x) :
    execIn mode i s = exec i s := by
  cases i
  case ldVxK x => exact absurd rfl (h x)
  all_goals rfl

/-- The execute phase is that of the default mode. -/
theorem execIn_default (i : Instr) (s : State) : execIn keyWaitMode i s = exec i s := by
  cases i <;> rfl

/-- Two execute phases that agree on the instruction fetched give one step. -/
theorem stepBy_congr {run run' : Instr → State → Result} {s : State}
    (h : ∀ i t, s.wait = none → decode (State.fetchWord s) = .ok i → run i t = run' i t) :
    stepBy run s = stepBy run' s := by
  cases hw : s.wait with
  | some r => rw [stepBy_of_wait run hw, stepBy_of_wait run' hw]
  | none =>
    cases hd : decode (State.fetchWord s) with
    | ok i => rw [stepBy_of_instr run hw hd, stepBy_of_instr run' hw hd, h i _ hw hd]
    | error e => rw [stepBy_of_unrecognised run hw hd, stepBy_of_unrecognised run' hw hd]

/-- The step is that of the default mode. -/
theorem stepIn_default (s : State) : stepIn keyWaitMode s = step s :=
  stepBy_congr fun i t _ _ => execIn_default i t

/-- A step that does not run the key-wait is the same in both modes. -/
theorem stepIn_of_ne (mode : KeyWaitMode) {s : State}
    (h : ∀ x, s.wait = none → decode (State.fetchWord s) ≠ .ok (.ldVxK x)) : stepIn mode s = step s :=
  stepBy_congr fun _ t hw hd => execIn_of_ne mode t fun x e => h x hw (e ▸ hd)

/-- A step that runs the key-wait. -/
theorem stepIn_of_keyWait (mode : KeyWaitMode) {s : State} {x : Nibble} (h : s.wait = none)
    (hd : decode (State.fetchWord s) = .ok (.ldVxK x)) :
    stepIn mode s = endStepAfter (execKeyWait mode x (State.advancePc (State.beginStep s))) :=
  stepBy_of_instr (execIn mode) h hd

/-! ### The execute phase -/

theorem exec_call_of_lt (nnn : Addr) {s : State} (h : s.sp.val < 16) :
    exec (.call nnn) s = .next { State.pushPc s h with pc := zextAddr nnn } := by
  simp only [exec, execCall, h, dite_true]

theorem exec_call_of_full (nnn : Addr) {s : State} (h : ¬ s.sp.val < 16) :
    exec (.call nnn) s = .next (State.emitDiag s .stackOverflow (encode (.call nnn))) := by
  simp only [exec, execCall, h, dite_false]

theorem exec_ret_of_pos (ign : Nibble) {s : State} (h : 0 < s.sp.val) :
    exec (.ret ign) s = .next (State.popPc s h) := by
  simp only [exec, execRet, h, dite_true]

theorem exec_ret_of_empty (ign : Nibble) {s : State} (h : ¬ 0 < s.sp.val) :
    exec (.ret ign) s = .next (State.emitDiag s .stackUnderflow (encode (.ret ign))) := by
  simp only [exec, execRet, h, dite_false]

/-- No execute phase faults or is refused. -/
theorem exec_answers (i : Instr) (s : State) : ∃ t, exec i s = .next t := by
  cases i
  case call nnn => unfold exec execCall; dsimp only; split <;> exact ⟨_, rfl⟩
  case ret ign => unfold exec execRet; dsimp only; split <;> exact ⟨_, rfl⟩
  all_goals exact ⟨_, rfl⟩

theorem endStepAfter_next (s : State) : endStepAfter (.next s) = .next (State.endStep s) := rfl

/-! ### The tick in numbers -/

theorem toNat_countDown (t : Byte) : (countDown t).toNat = t.toNat - 1 := by
  unfold countDown
  split
  case isTrue h => subst h; rfl
  case isFalse h =>
    have h0 : t.toNat ≠ 0 := fun e => h (BitVec.eq_of_toNat_eq e)
    have := t.isLt
    rw [BitVec.toNat_sub]
    simp
    omega

theorem beq_one_iff (t : Byte) : (t == 1) = true ↔ t.toNat = 1 := by
  simp [BitVec.toNat_eq]

/-- The address a diagnostic records, in the execute phase of a step, is the `pc` before the step. -/
@[simp] theorem word_add_two_sub_two (w : Word) : w + 2 - 2 = w := by simp

/-- The fetched word as a number: the byte at the lower address counts 256 (spec/20_memory.md R54). -/
theorem toNat_wordOfBytes (hi lo : Byte) : (wordOfBytes hi lo).toNat = hi.toNat * 256 + lo.toNat := by
  show (hi ++ lo).toNat = _
  rw [BitVec.toNat_append, ← Nat.shiftLeft_add_eq_or_of_lt lo.isLt, Nat.shiftLeft_eq]

end Sys2Proof.Machine
end

