-- ==== Sys2Proof/Tests/Slice0.lean ====
section
/-! SUPPORT. The tests: the checks on what is handed to the machine, every constructor's decoding of a word
written out bit by bit, one or two steps per instruction, and for every statement with hypotheses a witness
that meets them. Expected values are those of spec/95_test_vectors.md (S and T numbers) or of the rule named. -/

namespace Sys2Proof.Tests

open Sys2Proof Sys2Proof.Machine Sys2Proof.Safety

/-! ## Helpers -/

/-- The next state, if the answer is one. -/
def answer : Result → Option State
  | .next t => some t
  | .fault _ => none
  | .refused _ => none

/-- The state with bytes in memory from an address. -/
def withBytes (a : Nat) (bs : List Byte) (s : State) : State := { s with mem := Memory.writeBytes s.mem a bs }

/-- The state with general registers set. -/
def withRegs (rs : List (Nibble × Byte)) (s : State) : State := rs.foldl (fun s r => State.setReg s r.1 r.2) s

/-- The state with pixels lit, by row and column. -/
def withLit (ps : List (Nat × Nat)) (s : State) : State :=
  { s with fb := ps.foldl (fun fb p => fbToggle fb (p.1 * 64 + p.2)) s.fb }

/-- The framebuffer of a state, as the list of the rows that are not dark, each with its bits. -/
def litRows (s : State) : List (Nat × BitVec 64) :=
  ((List.range 32).zip s.fb.toList).filter (fun r => r.2 != 0)

/-- The framebuffer rows of a list of pixels. -/
def litOf (ps : List (Nat × Nat)) : List (Nat × BitVec 64) := litRows (withLit ps State.reset)

/-- One step on the instruction of a word from a start state. -/
def stepOn (w : Nat) (s : State) : Option State := answer (step (s.withFetchWord 16 w))

/-- A key-wait under way, with the keys of the host. -/
def waiting (keys : BitVec 16) : State := { State.reset with wait := some 3, key := keys }

/-! ## The checks: ill-formed terms are refused -/

theorem test_image_of_3584_bytes_is_accepted : Image.wellFormed (List.replicate 3584 0) = true := by
  rw [Image.wellFormed, List.length_replicate]; decide

theorem test_image_of_3585_bytes_is_refused : Image.wellFormed (List.replicate 3585 0) = false := by
  rw [Image.wellFormed, List.length_replicate]; decide

theorem test_canonical_accepts_the_canonical_spellings :
    Instr.canonical (.cls 0) = true ∧ Instr.canonical (.ret 0) = true ∧
    Instr.canonical (.seVxVy 1 2 0) = true ∧ Instr.canonical (.sneVxVy 1 2 0) = true := by decide

theorem test_canonical_refuses_the_other_spellings :
    Instr.canonical (.cls 0xA) = false ∧ Instr.canonical (.ret 5) = false ∧
    Instr.canonical (.seVxVy 1 2 7) = false ∧ Instr.canonical (.sneVxVy 1 2 0xF) = false := by decide

theorem test_memory_wf_accepts_a_rising_list : Memory.wf [(0, 1), (0x200, 0x22), (0xFFF, 0xFF)] = true := by decide

theorem test_memory_wf_refuses_a_falling_list : Memory.wf [(0x300, 1), (0x200, 2)] = false := by decide

theorem test_memory_wf_refuses_a_repeated_address : Memory.wf [(0x200, 1), (0x200, 2)] = false := by decide

theorem test_memory_wf_refuses_an_address_outside : Memory.wf [(0x1000, 1)] = false := by decide

theorem test_memory_wf_refuses_a_reset_byte : Memory.wf [(0x200, 0)] = false ∧ Memory.wf [(0, 0xF0)] = false := by
  decide

/-! ## Decoding: words written out from the layouts of R71 and the opcode map R76 -/

theorem test_decode_family_0 :
    decode 0b0000_0000_1110_0000 = .ok (.cls 0) ∧ decode 0b0000_1010_1110_0000 = .ok (.cls 0xA) ∧
    decode 0b0000_0000_1110_1110 = .ok (.ret 0) ∧ decode 0b0000_0101_1110_1110 = .ok (.ret 5) := by decide

theorem test_decode_jump_and_call :
    decode 0b0001_0010_0011_0100 = .ok (.jp 0x234) ∧ decode 0b0010_0011_0000_0000 = .ok (.call 0x300) ∧
    decode 0b1011_1111_1111_1111 = .ok (.jpV0Nnn 0xFFF) := by decide

theorem test_decode_skips :
    decode 0b0011_0001_0010_1010 = .ok (.seVxKk 1 0x2A) ∧ decode 0b0100_0001_0010_1010 = .ok (.sneVxKk 1 0x2A) ∧
    decode 0b0101_0001_0010_0111 = .ok (.seVxVy 1 2 7) ∧ decode 0b1001_0001_0010_0000 = .ok (.sneVxVy 1 2 0) ∧
    decode 0b1110_0010_1001_1110 = .ok (.skpVx 2) ∧ decode 0b1110_0010_1010_0001 = .ok (.sknpVx 2) := by decide

theorem test_decode_immediates :
    decode 0b0110_1010_0010_1100 = .ok (.ldVxKk 0xA 0x2C) ∧ decode 0b0111_0011_0010_0000 = .ok (.addVxKk 3 0x20) ∧
    decode 0b1100_0011_0000_1111 = .ok (.rndVxKk 3 0x0F) ∧ decode 0b1010_0011_0000_0000 = .ok (.ldINnn 0x300) := by
  decide

theorem test_decode_family_8_logic :
    decode 0b1000_0001_0010_0000 = .ok (.ldVxVy 1 2) ∧ decode 0b1000_0001_0010_0001 = .ok (.orVxVy 1 2) ∧
    decode 0b1000_0001_0010_0010 = .ok (.andVxVy 1 2) ∧ decode 0b1000_0001_0010_0011 = .ok (.xorVxVy 1 2) := by decide

theorem test_decode_family_8_arithmetic :
    decode 0b1000_0001_0010_0100 = .ok (.addVxVy 1 2) ∧ decode 0b1000_0001_0010_0101 = .ok (.subVxVy 1 2) ∧
    decode 0b1000_0100_0101_0110 = .ok (.shrVx 4 5) ∧ decode 0b1000_0001_0010_0111 = .ok (.subnVxVy 1 2) ∧
    decode 0b1000_0100_0101_1110 = .ok (.shlVx 4 5) := by decide

theorem test_decode_draw : decode 0b1101_0011_0100_0101 = .ok (.drwVxVyN 3 4 5) := by decide

theorem test_decode_family_F_timers :
    decode 0b1111_0101_0000_0111 = .ok (.ldVxDt 5) ∧ decode 0b1111_0011_0000_1010 = .ok (.ldVxK 3) ∧
    decode 0b1111_0001_0001_0101 = .ok (.ldDtVx 1) ∧ decode 0b1111_0001_0001_1000 = .ok (.ldStVx 1) := by decide

theorem test_decode_family_F_memory :
    decode 0b1111_0010_0001_1110 = .ok (.addIVx 2) ∧ decode 0b1111_0011_0010_1001 = .ok (.ldFVx 3) ∧
    decode 0b1111_0100_0011_0011 = .ok (.ldBVx 4) ∧ decode 0b1111_1111_0101_0101 = .ok (.ldMemVx 0xF) ∧
    decode 0b1111_0010_0110_0101 = .ok (.ldVxMem 2) := by decide

/-- Words beside the recognised ones: S8, T33, T34, T67, T119, T120 and `SYS 0x123`. -/
theorem test_decode_refuses_by_family :
    decode 0x0000 = .error .family0 ∧ decode 0x0123 = .error .family0 ∧ decode 0x8128 = .error .family8 ∧
    decode 0x812F = .error .family8 ∧ decode 0xE29F = .error .familyE ∧ decode 0xF300 = .error .familyF ∧
    decode 0xF375 = .error .familyF := by decide

/-- Big-endian: the byte at the lower address is `w[15:8]` (spec/20_memory.md R54). -/
theorem test_decode_bytes_high_byte_first : decodeBytes 0x6A 0x2C = .ok (.ldVxKk 0xA 0x2C) := by decide

theorem test_decode_table_word : decodeTableWord 16 0xD015 = some (.drwVxVyN 0 1 5) ∧ decodeTableWord 16 0 = none := by
  decide

/-! ## Register, logic and arithmetic -/

/-- T2. -/
theorem test_ldVxKk : (stepOn 0x6FFF State.reset).map (fun t => (State.reg t 0xF, t.pc)) = some (0xFF, 0x202) := by
  decide

/-- T4. -/
theorem test_addVxKk_no_carry :
    (stepOn 0x7001 (withRegs [(0, 0xFF), (0xF, 1)] State.reset)).map (fun t => (State.reg t 0, State.reg t 0xF))
      = some (0x00, 1) := by decide

/-- T5. -/
theorem test_addVxKk_on_VF :
    (stepOn 0x7F05 (withRegs [(0xF, 0xFE)] State.reset)).map (fun t => State.reg t 0xF) = some 0x03 := by decide

/-- T6. -/
theorem test_ldVxVy :
    (stepOn 0x8120 (withRegs [(2, 7)] State.reset)).map (fun t => (State.reg t 1, State.reg t 2)) = some (7, 7) := by
  decide

/-- T7. -/
theorem test_orVxVy :
    (stepOn 0x8121 (withRegs [(1, 0x0F), (2, 0xF0), (0xF, 1)] State.reset)).map
      (fun t => (State.reg t 1, State.reg t 2, State.reg t 0xF)) = some (0xFF, 0xF0, 1) := by decide

/-- T8. -/
theorem test_andVxVy :
    (stepOn 0x8122 (withRegs [(1, 0x3C), (2, 0x0F), (0xF, 1)] State.reset)).map
      (fun t => (State.reg t 1, State.reg t 0xF)) = some (0x0C, 1) := by decide

/-- T9. -/
theorem test_xorVxVy :
    (stepOn 0x8123 (withRegs [(1, 0xFF), (2, 0x0F), (0xF, 1)] State.reset)).map
      (fun t => (State.reg t 1, State.reg t 0xF)) = some (0xF0, 1) := by decide

/-- T13. -/
theorem test_addVxVy_carry :
    (stepOn 0x8124 (withRegs [(1, 0xFF), (2, 1)] State.reset)).map (fun t => (State.reg t 1, State.reg t 0xF))
      = some (0x00, 1) := by decide

/-- T15: the sum is lost. -/
theorem test_addVxVy_on_VF :
    (stepOn 0x8F24 (withRegs [(0xF, 0x10), (2, 0x20)] State.reset)).map (fun t => State.reg t 0xF) = some 0 := by decide

/-- T17. -/
theorem test_subVxVy_borrow :
    (stepOn 0x8125 (withRegs [(1, 100), (2, 200), (0xF, 1)] State.reset)).map
      (fun t => (State.reg t 1, State.reg t 0xF)) = some (0x9C, 0) := by decide

/-- T18: equal operands give 0. -/
theorem test_subVxVy_equal :
    (stepOn 0x8125 (withRegs [(1, 7), (2, 7), (0xF, 1)] State.reset)).map
      (fun t => (State.reg t 1, State.reg t 0xF)) = some (0, 0) := by decide

/-- T23: `y` is ignored. -/
theorem test_shrVx :
    (stepOn 0x8456 (withRegs [(4, 0xFF), (5, 0x12)] State.reset)).map
      (fun t => (State.reg t 4, State.reg t 0xF, State.reg t 5)) = some (0x7F, 1, 0x12) := by decide

/-- T25. -/
theorem test_shrVx_on_VF :
    (stepOn 0x8F06 (withRegs [(0xF, 3)] State.reset)).map (fun t => State.reg t 0xF) = some 1 := by decide

/-- T26: the source's own convention. -/
theorem test_subnVxVy_flag :
    (stepOn 0x8127 (withRegs [(1, 10), (2, 5)] State.reset)).map (fun t => (State.reg t 1, State.reg t 0xF))
      = some (0xFB, 1) := by decide

/-- T27. -/
theorem test_subnVxVy_no_flag :
    (stepOn 0x8127 (withRegs [(1, 5), (2, 10), (0xF, 1)] State.reset)).map
      (fun t => (State.reg t 1, State.reg t 0xF)) = some (5, 0) := by decide

/-- T30. -/
theorem test_shlVx_out :
    (stepOn 0x840E (withRegs [(4, 0x81)] State.reset)).map (fun t => (State.reg t 4, State.reg t 0xF))
      = some (0x02, 1) := by decide

/-- T31. -/
theorem test_shlVx_no_out :
    (stepOn 0x840E (withRegs [(4, 0x7F), (0xF, 1)] State.reset)).map (fun t => (State.reg t 4, State.reg t 0xF))
      = some (0xFE, 0) := by decide

/-- T36: `kk = 0` gives 0 whatever the draw. -/
theorem test_rndVxKk_zero_mask :
    ∃ t, exec (.rndVxKk 3 0) (withRegs [(3, 0x55)] State.reset) = .next t ∧ State.reg t 3 = 0 :=
  ⟨_, rfl, (reg_setReg_self ..).trans BitVec.and_zero⟩

/-- R112: `kk = 0xFF` gives the draw itself. -/
theorem test_rndVxKk_full_mask :
    ∃ t, exec (.rndVxKk 3 0xFF) State.reset = .next t ∧ State.reg t 3 = Config.rnd 0 :=
  ⟨_, rfl, (reg_setReg_self ..).trans BitVec.and_allOnes⟩

/-! ## Control flow -/

/-- T40. -/
theorem test_jp : (stepOn 0x1234 State.reset).map (fun t => t.pc) = some 0x234 := by decide

/-- T42: an odd target is taken, with no diagnostic. -/
theorem test_jp_odd : (stepOn 0x1301 State.reset).map (fun t => (t.pc, t.diag)) = some (0x301, none) := by decide

/-- T44. -/
theorem test_jpV0Nnn :
    (stepOn 0xBFFF (withRegs [(0, 0xFF)] State.reset)).map (fun t => t.pc) = some 0x10FE := by decide

/-- T46: the last free slot. -/
theorem test_call_last_slot :
    (stepOn 0x2300 { State.reset with sp := 15 }).map (fun t => (t.stack[15], t.sp, t.pc, t.diag))
      = some (0x202, 16, 0x300, none) := by decide

/-- T47. -/
theorem test_call_overflow :
    (stepOn 0x2300 { State.reset with sp := 16 }).map (fun t => (t.pc, t.sp, t.stack, t.diag))
      = some (0x202, 16, State.reset.stack, some { kind := .stackOverflow, word := 0x2300, addr := 0x200 }) := by decide

/-- T51: the ignored bits are ignored, and the newest of two slots is popped. -/
theorem test_ret :
    (stepOn 0x05EE { State.reset with sp := 2, stack := (State.reset.stack.set 0 0x202).set 1 0xABC }).map
      (fun t => (t.sp, t.pc, t.stack[1])) = some (1, 0xABC, 0xABC) := by decide

/-- T50. -/
theorem test_ret_underflow :
    (stepOn 0x00EE State.reset).map (fun t => (t.pc, t.sp, t.diag))
      = some (0x202, 0, some { kind := .stackUnderflow, word := 0x00EE, addr := 0x200 }) := by decide

/-- T52. -/
theorem test_seVxKk_taken :
    (stepOn 0x312A (withRegs [(1, 0x2A)] State.reset)).map (fun t => t.pc) = some 0x204 := by decide

/-- T53. -/
theorem test_seVxKk_not_taken :
    (stepOn 0x312A (withRegs [(1, 0x2B)] State.reset)).map (fun t => t.pc) = some 0x202 := by decide

/-- T54. -/
theorem test_sneVxKk_not_taken :
    (stepOn 0x412A (withRegs [(1, 0x2A)] State.reset)).map (fun t => t.pc) = some 0x202 := by decide

/-- T55. -/
theorem test_sneVxKk_taken :
    (stepOn 0x412A (withRegs [(1, 0x2B)] State.reset)).map (fun t => t.pc) = some 0x204 := by decide

/-- T58: the low nibble is ignored. -/
theorem test_seVxVy_taken :
    (stepOn 0x5127 (withRegs [(1, 3), (2, 3)] State.reset)).map (fun t => (t.pc, t.diag)) = some (0x204, none) := by
  decide

/-- T57. -/
theorem test_seVxVy_not_taken :
    (stepOn 0x5120 (withRegs [(1, 3), (2, 4)] State.reset)).map (fun t => t.pc) = some 0x202 := by decide

/-- T59. -/
theorem test_sneVxVy_taken :
    (stepOn 0x9120 (withRegs [(1, 3), (2, 4)] State.reset)).map (fun t => t.pc) = some 0x204 := by decide

/-- T60. -/
theorem test_sneVxVy_not_taken :
    (stepOn 0x9120 (withRegs [(1, 3), (2, 3)] State.reset)).map (fun t => t.pc) = some 0x202 := by decide

/-- T64: the key number is the low nibble. -/
theorem test_skpVx_taken :
    (stepOn 0xE29E (withRegs [(2, 0x15)] { State.reset with key := 0x0020 })).map (fun t => t.pc) = some 0x204 := by
  decide

/-- T63. -/
theorem test_skpVx_not_taken :
    (stepOn 0xE29E (withRegs [(2, 5)] State.reset)).map (fun t => t.pc) = some 0x202 := by decide

/-- T65. -/
theorem test_sknpVx_taken :
    (stepOn 0xE2A1 (withRegs [(2, 5)] State.reset)).map (fun t => t.pc) = some 0x204 := by decide

/-- T66. -/
theorem test_sknpVx_not_taken :
    (stepOn 0xE2A1 (withRegs [(2, 5)] { State.reset with key := 0x0020 })).map (fun t => t.pc) = some 0x202 := by decide

/-! ## The step around an instruction -/

/-- T69: the fetch wraps within memory and `pc` does not. -/
theorem test_fetch_wraps :
    (answer (step (withBytes 0xFFF [0x6A, 0x2C] { State.reset with pc := 0xFFF }))).map
      (fun t => (State.reg t 0xA, t.pc)) = some (0x2C, 0x1001) := by decide

/-- T71: `pc` wraps at 65536. -/
theorem test_pc_wraps :
    (answer (step (withBytes 0xFFE [0x6A, 0x2C] { State.reset with pc := 0xFFFE }))).map
      (fun t => (State.reg t 0xA, t.pc)) = some (0x2C, 0x0000) := by decide

/-- T117: an unrecognised word; the tick runs. -/
theorem test_unrecognised :
    (stepOn 0x0000 { State.reset with dt := 3, st := 1 }).map (fun t => (t.pc, t.dt, t.st, t.beep, t.diag))
      = some (0x202, 2, 0, true, some { kind := .unrecognizedOpcode, word := 0x0000, addr := 0x200 }) := by decide

/-- T116. -/
theorem test_tick : (stepOn 0x6000 { State.reset with dt := 255, st := 2 }).map (fun t => (t.dt, t.st, t.beep))
    = some (254, 1, false) := by decide

/-! ## Framebuffer -/

/-- T80. -/
theorem test_cls :
    (stepOn 0x00E0 (withRegs [(0xF, 1)] (withLit [(0, 0), (1, 36), (31, 63)] State.reset))).map
      (fun t => (litRows t, t.rp, State.reg t 0xF)) = some ([], true, 1) := by decide

/-- T82: the ignored bits are ignored, with no diagnostic. -/
theorem test_cls_ignored_bits :
    (stepOn 0x0AE0 (withLit [(0, 5)] State.reset)).map (fun t => (litRows t, t.rp, t.diag)) = some ([], true, none) := by
  decide

/-- T89: both axes wrap, each on its own. -/
theorem test_drw_wraps :
    (stepOn 0xD011 (withRegs [(0, 255), (1, 255)] (withBytes 0x300 [0xC0] { State.reset with index := 0x300 }))).map
      (fun t => (litRows t, State.reg t 0xF, t.rp)) = some (litOf [(31, 63), (31, 0)], 0, true) := by decide

/-- T85: a collision. -/
theorem test_drw_collision :
    (stepOn 0xD011 (withLit [(0, 3)] (withBytes 0x300 [0xFF] { State.reset with index := 0x300 }))).map
      (fun t => (litRows t, State.reg t 0xF))
      = some (litOf [(0, 0), (0, 1), (0, 2), (0, 4), (0, 5), (0, 6), (0, 7)], 1) := by decide

/-! ## Index register, timers, key-wait, BCD, block transfers -/

/-- T101. -/
theorem test_ldINnn : (stepOn 0xAFFF { State.reset with index := 0xF000 }).map (fun t => t.index) = some 0x0FFF := by
  decide

/-- T103: no flag, no 12-bit mask. -/
theorem test_addIVx_past_memory :
    (stepOn 0xF21E (withRegs [(2, 1)] { State.reset with index := 0x0FFF })).map (fun t => (t.index, State.reg t 0xF))
      = some (0x1000, 0) := by decide

/-- T104. -/
theorem test_addIVx_wraps :
    (stepOn 0xF21E (withRegs [(2, 1)] { State.reset with index := 0xFFFF })).map (fun t => t.index) = some 0 := by decide

/-- T106. -/
theorem test_ldFVx : (stepOn 0xF329 (withRegs [(3, 0x1A)] State.reset)).map (fun t => t.index) = some 0x32 := by decide

/-- T107. -/
theorem test_ldVxDt :
    (stepOn 0xF507 { State.reset with dt := 0x10 }).map (fun t => (State.reg t 5, t.dt)) = some (0x10, 0x0F) := by decide

/-- T118. -/
theorem test_ldVxK :
    (stepOn 0xF30A (withRegs [(3, 0x77)] { State.reset with key := 0x0010 })).map (fun t => (State.reg t 3, t.pc, t.diag))
      = some (0x77, 0x202, some { kind := .unimplementedOpcode, word := 0xF30A, addr := 0x200 }) := by decide

/-- T109. -/
theorem test_ldDtVx : (stepOn 0xF115 (withRegs [(1, 5)] State.reset)).map (fun t => t.dt) = some 4 := by decide

/-- T111: the delay timer never beeps. -/
theorem test_ldDtVx_no_beep :
    (stepOn 0xF115 (withRegs [(1, 1)] State.reset)).map (fun t => (t.dt, t.beep)) = some (0, false) := by decide

/-- T113: the beep comes in the writing step. -/
theorem test_ldStVx_beeps :
    (stepOn 0xF118 (withRegs [(1, 1)] State.reset)).map (fun t => (t.st, t.beep)) = some (0, true) := by decide

/-- T114: silenced before the tick. -/
theorem test_ldStVx_silences :
    (stepOn 0xF118 (withRegs [(1, 0)] { State.reset with st := 1 })).map (fun t => (t.st, t.beep)) = some (0, false) := by
  decide

/-- T121. -/
theorem test_ldBVx :
    (stepOn 0xF433 (withRegs [(4, 156)] { State.reset with index := 0x300 })).map
      (fun t => (Memory.readBytes t.mem 0x300 3, t.index)) = some ([1, 5, 6], 0x300) := by decide

/-- T126: past the top of memory, over the font. -/
theorem test_ldBVx_wraps :
    (stepOn 0xF433 (withRegs [(4, 123)] { State.reset with index := 0xFFE })).map
      (fun t => (Memory.readBytes t.mem 0xFFE 3, Memory.read t.mem 0)) = some ([1, 2, 3], 3) := by decide

/-- T127. -/
theorem test_ldMemVx :
    (stepOn 0xF255 (withRegs [(0, 0x11), (1, 0x22), (2, 0x33), (3, 0x44)] { State.reset with index := 0x400 })).map
      (fun t => (Memory.readBytes t.mem 0x400 4, t.index)) = some ([0x11, 0x22, 0x33, 0x00], 0x400) := by decide

/-- T129, its two ends: all sixteen registers, past the top of memory. -/
theorem test_ldMemVx_wraps :
    (stepOn 0xFF55 (withRegs [(0, 0xA0), (7, 0xA7), (8, 0xA8), (0xF, 0xAF)] { State.reset with index := 0xFF8 })).map
      (fun t => [Memory.read t.mem 0xFF8, Memory.read t.mem 0xFFF, Memory.read t.mem 0, Memory.read t.mem 7])
      = some [0xA0, 0xA7, 0xA8, 0xAF] := by decide

/-- T130. -/
theorem test_ldVxMem :
    (stepOn 0xF265 (withRegs [(3, 0x99)] (withBytes 0x400 [0x11, 0x22, 0x33, 0x44] { State.reset with index := 0x400 }))).map
      (fun t => ([0, 1, 2, 3].map (State.reg t), t.index)) = some ([0x11, 0x22, 0x33, 0x99], 0x400) := by decide

/-- T131: the default font's first bytes. -/
theorem test_ldVxMem_font :
    (stepOn 0xFF65 State.reset).map (fun t => t.v.toList) =
      some [0xF0, 0x90, 0x90, 0x90, 0xF0, 0x20, 0x60, 0x20, 0x20, 0x70, 0xF0, 0x10, 0xF0, 0x80, 0xF0, 0xF0] := by decide

/-! ## Witnesses: every statement with hypotheses has a state and operands that meet them

A statement with no hypotheses (a result for every state and operand) has none. Where a statement has several
clauses, each has its own line, at the edge of its range. -/

/-- A word that decodes. -/
theorem witness_EncodeOfDecodeIsTheWord : decode 0x8124 = .ok (.addVxVy 1 2) := by decide

/-- Both sides of the equivalence: a word of the row of `OR`, and one that is not. -/
theorem witness_OpcodeMapSelectsTheRow :
    (0x8AB1 : Word) &&& opcodeMask (.orVxVy 0 0) = opcodeMatch (.orVxVy 0 0) ∧
    (0x8AB2 : Word) &&& opcodeMask (.orVxVy 0 0) ≠ opcodeMatch (.orVxVy 0 0) := by decide

/-- A state about to run `0x6000`, an instruction that is none of the jumps. -/
def plainState : State := State.withFetchWord State.reset 16 0x6000

theorem plainState_runs : runs plainState = some (.ldVxKk 0 0) := by decide

theorem witness_StepRunsTheDecodedInstruction :
    plainState.wait = none ∧ decode (State.fetchWord plainState) = .ok (.ldVxKk 0 0) := by decide

/-- The state after reset, with nothing loaded, is about to run the word 0x0000 (S8). -/
theorem witness_UnrecognisedWordIsALoggedNoOp :
    State.reset.wait = none ∧ decode (State.fetchWord State.reset) = .error .family0 := by decide

theorem witness_PcAfterEveryStepFollowsTheTable : plainState.wait = none ∧ pcAfter plainState = 0x202 := by decide

/-- Every special line of the table of `pc` is met, with its condition true and false. -/
theorem witness_PcAfterEveryStepFollowsTheTable_lines :
    pcAfter (State.reset.withFetchWord 16 0x1FFF) = 0xFFF ∧ pcAfter (State.reset.withFetchWord 16 0xBFFF) = 0xFFF ∧
    pcAfter ({ State.reset with sp := 15 }.withFetchWord 16 0x2300) = 0x300 ∧
    pcAfter ({ State.reset with sp := 16 }.withFetchWord 16 0x2300) = 0x202 ∧
    pcAfter ({ State.reset with sp := 16 }.withFetchWord 16 0x00EE) = 0 ∧
    pcAfter (State.reset.withFetchWord 16 0x00EE) = 0x202 ∧
    pcAfter (State.reset.withFetchWord 16 0x3000) = 0x204 ∧ pcAfter (State.reset.withFetchWord 16 0x3001) = 0x202 ∧
    pcAfter (State.reset.withFetchWord 16 0xE09E) = 0x202 ∧ pcAfter (State.reset.withFetchWord 16 0xE0A1) = 0x204 := by
  decide

/-- Each kind of diagnostic and none. -/
theorem witness_DiagnosticOfEveryStep :
    plainState.wait = none ∧ diagAfter plainState = none ∧
    (diagAfter State.reset).map (fun d => d.kind) = some .unrecognizedOpcode ∧
    (diagAfter (State.reset.withFetchWord 16 0xF00A)).map (fun d => d.kind) = some .unimplementedOpcode ∧
    (diagAfter ({ State.reset with sp := 16 }.withFetchWord 16 0x2300)).map (fun d => d.kind) = some .stackOverflow ∧
    (diagAfter (State.reset.withFetchWord 16 0x00EE)).map (fun d => d.kind) = some .stackUnderflow := by decide

/-- Both sides of the equivalence. -/
theorem witness_RedrawIsPendingExactlyAfterClsOrDrw :
    runs (State.reset.withFetchWord 16 0x00E0) = some (.cls 0) ∧
    runs (State.reset.withFetchWord 16 0xD015) = some (.drwVxVyN 0 1 5) ∧
    runs plainState ≠ some (.cls 0) := by decide

theorem witness_OtherStepsKeepAnEvenPc :
    plainState.pc.toNat % 2 = 0 ∧ plainState.wait = none ∧ (∀ nnn, runs plainState ≠ some (.jp nnn)) ∧
    (∀ nnn, runs plainState ≠ some (.jpV0Nnn nnn)) ∧ (∀ nnn, runs plainState ≠ some (.call nnn)) ∧
    (∀ ign, runs plainState ≠ some (.ret ign)) := by
  rw [plainState_runs]
  refine ⟨by decide, by decide, ?_, ?_, ?_, ?_⟩ <;> intro _ h <;> cases h

/-- Jumps to themselves at both ends of the range: address 0 and address 0xFFE. -/
theorem witness_FinishedStateStaysPut :
    (({ State.reset with pc := 0 }.withFetchWord 16 0x1000).wait = none ∧
      Finished ({ State.reset with pc := 0 }.withFetchWord 16 0x1000)) ∧
    (({ State.reset with pc := 0xFFE }.withFetchWord 16 0x1FFE).wait = none ∧
      Finished ({ State.reset with pc := 0xFFE }.withFetchWord 16 0x1FFE)) :=
  ⟨⟨rfl, by decide, by decide, by decide⟩, ⟨rfl, by decide, by decide, by decide⟩⟩

/-- The edges of the two ranges of addresses. -/
theorem witness_ResetTakesAnyFont : 79 < 80 ∧ 80 ≤ 80 ∧ 80 < 4096 ∧ 80 ≤ 4095 ∧ 4095 < 4096 := by decide

theorem witness_OnlyBcdAndBlockStoreWriteMemory :
    (∀ x, Instr.cls 0 ≠ .ldBVx x) ∧ (∀ x, Instr.cls 0 ≠ .ldMemVx x) :=
  ⟨fun _ h => (by cases h), fun _ h => (by cases h)⟩

/-- One instruction that is none of the writers, so that every clause applies to it. -/
theorem witness_EachComponentHasItsOwnWriters :
    (∀ nnn, Instr.skpVx 0 ≠ .call nnn) ∧ (∀ ign, Instr.skpVx 0 ≠ .ret ign) ∧ (∀ ign, Instr.skpVx 0 ≠ .cls ign) ∧
    (∀ x y n, Instr.skpVx 0 ≠ .drwVxVyN x y n) ∧ (∀ nnn, Instr.skpVx 0 ≠ .ldINnn nnn) ∧
    (∀ x, Instr.skpVx 0 ≠ .addIVx x) ∧ (∀ x, Instr.skpVx 0 ≠ .ldFVx x) ∧ (∀ x, Instr.skpVx 0 ≠ .ldDtVx x) ∧
    (∀ x, Instr.skpVx 0 ≠ .ldStVx x) := by
  refine ⟨?_, ?_, ?_, ?_, ?_, ?_, ?_, ?_, ?_⟩ <;> intros <;> intro h <;> cases h

theorem witness_OnlyRndReadsTheDraw : ∀ x kk, Instr.drwVxVyN 0 1 5 ≠ .rndVxKk x kk :=
  fun _ _ h => (by cases h)

theorem witness_OnlyKeySkipsReadTheKeys : (∀ x, Instr.ldVxK 3 ≠ .skpVx x) ∧ (∀ x, Instr.ldVxK 3 ≠ .sknpVx x) :=
  ⟨fun _ h => (by cases h), fun _ h => (by cases h)⟩

/-- A state that meets the invariant with every part of it at work: bytes listed, the diagnostic of a call on a
full stack (program P4, step 17), a sound timer still running. -/
theorem witness_EveryStepKeepsTheInvariant :
    Inv { State.reset with
      mem := [(0x200, 0x22)], pc := 0x202, sp := 16, st := 5
      diag := some { kind := .stackOverflow, word := 0x2200, addr := 0x200 } } := by
  refine ⟨by decide, by decide, ?_, by decide, fun _ h => (by cases h), fun _ _ _ => rfl⟩
  rintro d ⟨⟩
  exact ⟨rfl, rfl, 0x200, by decide⟩

/-- The same in the mode `wait`: a key-wait under way. -/
theorem witness_EveryStepKeepsTheInvariant_wait : InvIn .wait (waiting 0x8020) :=
  ⟨by decide, by decide, fun _ h => (by cases h), fun _ => rfl, fun _ _ => ⟨rfl, rfl, rfl⟩, fun _ h => (by cases h)⟩

/-- A state a host brings about: reset, a load, then key 7 pressed. -/
theorem witness_EveryReachableStateMeetsTheInvariant :
    Reachable .wait (State.setKeys 0x0080 (withBytes 0x200 [0x12, 0x00] (State.resetWith defaultFont))) :=
  .setKeys 0x0080 (.load (image := [0x12, 0x00]) (.reset defaultFont) rfl rfl)

/-- A font that is not the default one: its first and last bytes differ. -/
def otherFont : Font := (defaultFont.set 0 0xAA).set 79 0x55

/-- R37, R39: the font given stands in 0..79, zeros above it. -/
theorem test_resetWith_other_font :
    Memory.read (State.resetWith otherFont).mem 0 = 0xAA ∧ Memory.read (State.resetWith otherFont).mem 1 = 0x90 ∧
    Memory.read (State.resetWith otherFont).mem 79 = 0x55 ∧ Memory.read (State.resetWith otherFont).mem 80 = 0 :=
  ⟨(read_resetWith _ (by decide)).trans (by decide), (read_resetWith _ (by decide)).trans (by decide),
    (read_resetWith _ (by decide)).trans (by decide), (read_resetWith _ (by decide)).trans (by decide)⟩

/-- The edges of the three ranges of addresses, numbers and pixels. -/
theorem witness_ResetStateIsTheSpecs :
    Memory.read State.reset.mem 0 = 0xF0 ∧ Memory.read State.reset.mem 79 = 0x80 ∧
    Memory.read State.reset.mem 80 = 0 ∧ Memory.read State.reset.mem 4095 = 0 ∧
    State.pixel State.reset 2047 = false ∧ State.reset.key.getLsbD 15 = false := by decide

/-- The longest image that is taken and the shortest that is not. -/
theorem witness_LoadCopiesTheImageTo0x200 :
    (List.replicate 3584 (0 : Byte)).length ≤ 3584 ∧ 3584 < (List.replicate 3585 (0 : Byte)).length := by
  rw [List.length_replicate, List.length_replicate]; decide

/-- `x ≠ 0xF` at both ends of its range, for the statements of the instructions that write `VF`. -/
theorem witness_FlagStatements : (0 : Nibble) ≠ 0xF ∧ (0xE : Nibble) ≠ 0xF := by decide

/-- The carry and the flags of SUB and SUBN at the values where they change. -/
theorem witness_FlagStatements_edges :
    carryFlag 0xFE 1 = false ∧ carryFlag 0xFF 1 = true ∧ subFlag 7 7 = false ∧ subFlag 8 7 = true ∧
    subnFlag 7 7 = true ∧ subnFlag 6 7 = false := by decide

/-- A stack that is empty, one with one free slot, and a full one. -/
theorem witness_CallPushesOrOverflows :
    State.reset.sp.val < 16 ∧ { State.reset with sp := 15 }.sp.val < 16 ∧ { State.reset with sp := 16 }.sp.val = 16 := by
  decide

/-- A full stack, one with one entry, and an empty one. -/
theorem witness_RetPopsOrUnderflows :
    0 < { State.reset with sp := 16 }.sp.val ∧ 0 < { State.reset with sp := 1 }.sp.val ∧ State.reset.sp.val = 0 := by
  decide

theorem witness_RetUndoesCall : { State.reset with sp := 15 }.sp.val < 16 := by decide

/-- A set sprite bit over a lit pixel (T85), and a sprite with no rows, which meets none. -/
theorem witness_DrwIsTheXorCompositor :
    (∃ row < 32, ∃ col < 64,
      spriteBit (withLit [(0, 3)] (withBytes 0x300 [0xFF] { State.reset with index := 0x300 })) 0 1 1 row col = true ∧
      State.pixel (withLit [(0, 3)] (withBytes 0x300 [0xFF] { State.reset with index := 0x300 })) (row * 64 + col)
        = true) ∧
    (¬ ∃ row < 32, ∃ col < 64, spriteBit State.reset 0 1 0 row col = true ∧
      State.pixel State.reset (row * 64 + col) = true) := by
  refine ⟨⟨0, by decide, 3, by decide, by decide, by decide⟩, ?_⟩
  rintro ⟨row, -, col, -, h, -⟩
  simp [spriteBit] at h

/-- The sprite bits of T87, a sprite over the right edge: columns 63 and 0 of row 0, not column 4, not row 1. -/
theorem witness_spriteBit_wraps :
    [(0, 63), (0, 0), (0, 4), (1, 0)].map (fun p => spriteBit
      (withRegs [(0, 60)] (withBytes 0x300 [0xFF] { State.reset with index := 0x300 })) 0 1 1 p.1 p.2)
      = [true, true, false, false] := by decide

theorem witness_DrawingTwiceRestoresTheScreen : (0 : Nibble) ≠ 0xF ∧ (0xE : Nibble) ≠ 0xF := by decide

theorem witness_LdVxDtReadsBeforeTheTick : runs (State.reset.withFetchWord 16 0xFF07) = some (.ldVxDt 0xF) := by decide

theorem witness_TimersAreLoadedFromARegister :
    runs (State.reset.withFetchWord 16 0xF115) = some (.ldDtVx 1) ∧
    runs (State.reset.withFetchWord 16 0xF118) = some (.ldStVx 1) := by decide

/-- A wait with no key pressed, with key 0 and with key 15 alone. -/
theorem witness_KeyWaitInTheWaitMode :
    ((waiting 0).wait = some 3 ∧ ∀ k < 16, (waiting 0).key.getLsbD k = false) ∧
    ((waiting 1).wait = some 3 ∧ (waiting 1).key.getLsbD 0 = true ∧ ∀ j < 0, (waiting 1).key.getLsbD j = false) ∧
    ((waiting 0x8000).wait = some 3 ∧ (waiting 0x8000).key.getLsbD 15 = true ∧
      ∀ j < 15, (waiting 0x8000).key.getLsbD j = false) := by decide

/-- R152, the mode `wait`: `0xF30A` begins the wait with no diagnostic and `pc` advanced; of two keys pressed the
least one's number is stored and the wait ends, `pc` staying. -/
theorem test_wait_mode_begins_and_ends :
    (answer (stepIn .wait (State.reset.withFetchWord 16 0xF30A))).map (fun t => (t.wait, t.pc, t.diag))
      = some (some 3, 0x202, none) ∧
    (answer (stepIn .wait (waiting 0x8020))).map (fun t => (State.reg t 3, t.wait, t.pc))
      = some (5, none, 0x200) := by decide

/-- A step that runs the key-wait, one that runs another instruction, one of a key-wait under way. -/
theorem witness_KeyWaitModeIsAnArgumentOfTheStep :
    runs (State.reset.withFetchWord 16 0xFF0A) = some (.ldVxK 0xF) ∧
    (∀ x, runs plainState ≠ some (.ldVxK x)) ∧ (∀ x, runs (waiting 0) ≠ some (.ldVxK x)) :=
  ⟨by decide, fun _ h => (by rw [plainState_runs] at h; cases h), fun _ h => (by cases h)⟩

/-- Registers up to and above `x`, at the edges. -/
theorem witness_BlockTransfers :
    (0xF : Nibble).toNat ≤ (0xF : Nibble).toNat ∧ (0 : Nibble).toNat ≤ (0 : Nibble).toNat ∧
    (0xE : Nibble).toNat < (0xF : Nibble).toNat := by decide

/-- T133: `I` at the instruction after the store, during execute `pc` itself. -/
theorem witness_StoredCodeIsFetchedNext :
    1 ≤ (1 : Nibble).toNat ∧ { State.reset with index := 0x202, pc := 0x202 }.index
      = { State.reset with index := 0x202, pc := 0x202 }.pc := by decide

end Sys2Proof.Tests
end

section
/-! PROOFS. The register loads (spec/41_register_logic.md R100, R102): each is one write of a register, so
its statement is what a register reads after that write, and the frame of the write. -/

namespace Sys2Proof.Machine

open Sys2Proof.Safety

/-! ### The frame of a register write -/

/-- A register write leaves every other register (`VF` too, unless it is the one written) and all the rest
(R22, R23). -/
theorem onlyRegs_setReg (s : State) (x : Nibble) (b : Byte) : OnlyRegs [x] s (State.setReg s x b) := by
  have regs : RegsKept [x] s (State.setReg s x b) := by
    intro r hr
    have hx : x ≠ r := fun e => hr (List.mem_singleton.mpr e.symm)
    exact reg_setReg_ne s b hx
  have mem : MemKept s (State.setReg s x b) := fun a => by rw [setReg_mem]
  exact ⟨regs, mem, rfl⟩

/-- An execute phase that is one register write: the register reads what was written, and only it changes. -/
theorem exec_of_setReg {i : Instr} {s : State} {x : Nibble} {b : Byte}
    (h : exec i s = .next (State.setReg s x b)) :
    ∃ t, exec i s = .next t ∧ State.reg t x = b ∧ OnlyRegs [x] s t :=
  ⟨State.setReg s x b, h, reg_setReg_self s x b, onlyRegs_setReg s x b⟩

/-! ### The execute phases of the two loads -/

theorem exec_ldVxKk (x : Nibble) (kk : Byte) (s : State) :
    exec (.ldVxKk x kk) s = .next (State.setReg s x kk) := rfl

theorem exec_ldVxVy (x y : Nibble) (s : State) :
    exec (.ldVxVy x y) s = .next (State.setReg s x (State.reg s y)) := rfl

/-- A register copied onto itself: the state is unchanged (R102's corner case). -/
theorem exec_ldVxVy_self (x : Nibble) (s : State) : exec (.ldVxVy x x) s = .next s := by
  rw [exec_ldVxVy, setReg_reg]

/-! ### The statements -/

/-- Settles O25: the execute phase is one write of the immediate. -/
theorem ldVxKkLoadsTheImmediate : Obligations.LdVxKkLoadsTheImmediate := by
  unfold Obligations.LdVxKkLoadsTheImmediate
  constructor
  · intro x kk s
    exact exec_of_setReg (exec_ldVxKk x kk s)
  · -- R100's example word
    decide

/-- Settles O27: the execute phase is one write of what the source register holds, which for `x = y` writes
back the register's own value. -/
theorem ldVxVyCopiesTheRegister : Obligations.LdVxVyCopiesTheRegister := by
  unfold Obligations.LdVxVyCopiesTheRegister
  refine ⟨?_, exec_ldVxVy_self, ?_⟩
  · intro x y s
    exact exec_of_setReg (exec_ldVxVy x y s)
  · -- R102's example word
    decide

end Sys2Proof.Machine
end

section
/-! PROOFS. The skips on an immediate (spec/42_control_flow.md R124, R125): each is one conditional skip, so
its statement is where that skip leaves `pc`, its frame, and what the compared bytes make of its condition. -/

namespace Sys2Proof.Machine

open Sys2Proof.Safety

/-! ### The conditional skip -/

/-- A skip changes `pc` alone, taken or not (R130). -/
theorem onlyPc_skipIf (s : State) (c : Bool) : OnlyPc s (State.skipIf s c) := by
  have mem : MemKept s (State.skipIf s c) := fun a => by rw [skipIf_mem]
  cases c with
  | true => exact ⟨mem, rfl⟩
  | false => exact ⟨mem, rfl⟩

/-- The `pc` after a skip as a number: the 16-bit addition is the sum modulo 65536 (R130). -/
theorem toNat_skipIf_pc (s : State) (c : Bool) :
    (State.skipIf s c).pc.toNat = if c = true then (s.pc.toNat + 2) % 65536 else s.pc.toNat := by
  rw [skipIf_pc]
  cases c with
  | true => exact BitVec.toNat_add s.pc 2
  | false => rfl

/-- An execute phase that is one skip, whose condition says `P`: `pc` is 2 more exactly when `P` holds, and only
`pc` changes. -/
theorem exec_of_skipIf {i : Instr} {s : State} {c : Bool} {P : Prop} [Decidable P]
    (h : exec i s = .next (State.skipIf s c)) (hc : c = true ↔ P) :
    ∃ t, exec i s = .next t ∧ OnlyPc s t ∧
      t.pc.toNat = if P then (s.pc.toNat + 2) % 65536 else s.pc.toNat := by
  refine ⟨State.skipIf s c, h, onlyPc_skipIf s c, ?_⟩
  rw [toNat_skipIf_pc, if_congr hc rfl rfl]

/-! ### The conditions -/

/-- The model's test for equal bytes compares their numbers. -/
theorem beq_iff_toNat_eq (a b : Byte) : (a == b) = true ↔ a.toNat = b.toNat :=
  beq_iff_eq.trans BitVec.toNat_inj.symm

/-- The model's test for different bytes compares their numbers. -/
theorem bne_iff_toNat_ne (a b : Byte) : (a != b) = true ↔ a.toNat ≠ b.toNat :=
  bne_iff_ne.trans BitVec.toNat_inj.symm.not

/-! ### The execute phases of the two skips -/

theorem exec_seVxKk (x : Nibble) (kk : Byte) (s : State) :
    exec (.seVxKk x kk) s = .next (State.skipIf s (State.reg s x == kk)) := rfl

theorem exec_sneVxKk (x : Nibble) (kk : Byte) (s : State) :
    exec (.sneVxKk x kk) s = .next (State.skipIf s (State.reg s x != kk)) := rfl

/-! ### The statement -/

/-- Settles O40: each execute phase is one skip, on equal bytes for SE and on different bytes for SNE. -/
theorem skipsOnAnImmediate : Obligations.SkipsOnAnImmediate := by
  unfold Obligations.SkipsOnAnImmediate
  refine ⟨fun x kk s => ⟨?_, ?_⟩, ?_⟩
  · exact exec_of_skipIf (exec_seVxKk x kk s) (beq_iff_toNat_eq (State.reg s x) kk)
  · exact exec_of_skipIf (exec_sneVxKk x kk s) (bne_iff_toNat_ne (State.reg s x) kk)
  · -- the example words of R124 and R125
    decide

end Sys2Proof.Machine
end

section
/-! PROOFS. The font pointer (spec/44_timer_memory_bcd.md R156): one write of `I`, so its statement is the
frame of that write and the glyph address as a number. -/

namespace Sys2Proof.Machine

open Sys2Proof.Safety

/-! ### A write of the index register -/

/-- An execute phase that is one write of `I`: `I` holds what was written, and every register, all of memory
and the rest are as before. -/
theorem exec_of_setIndex {i : Instr} {s : State} {w : Word} (h : exec i s = .next { s with index := w }) :
    ∃ t, exec i s = .next t ∧ t.index = w ∧ RegsKept [] s t ∧ MemKept s t ∧ t = { s with index := t.index } := by
  have regs : RegsKept [] s { s with index := w } := fun r _ => reg_congr rfl r
  have mem : MemKept s { s with index := w } := fun _ => rfl
  exact ⟨_, h, rfl, regs, mem, rfl⟩

/-! ### The glyph address -/

/-- The low nibble of a byte as a number. -/
theorem toNat_lowNibble (b : Byte) : (lowNibble b).toNat = b.toNat % 16 :=
  BitVec.toNat_setWidth 4 b

/-- The glyph address as a number: at most 75, so the 16 bits of `I` cut nothing off (R156). -/
theorem toNat_glyphAddr (b : Byte) : (glyphAddr b).toNat = 5 * (b.toNat % 16) := by
  have fits : 5 * (b.toNat % 16) < 2 ^ 16 := by omega
  rw [glyphAddr, toNat_lowNibble, BitVec.toNat_ofNat, Nat.mod_eq_of_lt fits]

/-! ### The statement -/

theorem exec_ldFVx (x : Nibble) (s : State) :
    exec (.ldFVx x) s = .next { s with index := glyphAddr (State.reg s x) } := rfl

/-- Settles O48: the execute phase is one write of the glyph address to `I`. -/
theorem ldFPointsAtTheGlyph : Obligations.LdFPointsAtTheGlyph := by
  unfold Obligations.LdFPointsAtTheGlyph
  constructor
  · intro x s
    obtain ⟨t, hexec, hindex, frame⟩ := exec_of_setIndex (exec_ldFVx x s)
    have glyph : t.index.toNat = 5 * ((State.reg s x).toNat % 16) := by
      rw [hindex, toNat_glyphAddr]
    exact ⟨t, hexec, glyph, frame⟩
  · -- R156's example word
    decide

end Sys2Proof.Machine
end

section
/-! PROOFS. The decoder against the encoder (spec/30_encoding.md R71, R74): the fields of a packed word are what was
packed, so decoding finds the instruction again; and a word is packed from its own fields, so what a dispatch of the
decoder reads is enough to write the word again. -/

namespace Sys2Proof

/-! ### Decode after encode -/

/-- Each dispatch of the decoder finds the constants that the encoder packed, and each field comes back whole. -/
theorem decode_encode (i : Instr) : decode (encode i) = .ok i := by
  cases i
  case cls | ret => simp [encode, decode, decodeFamily0]
  case ldVxVy | orVxVy | andVxVy | xorVxVy | addVxVy | subVxVy | shrVx | subnVxVy | shlVx =>
    simp [encode, decode, decodeFamily8]
  case skpVx | sknpVx => simp [encode, decode, decodeFamilyE]
  case ldVxDt | ldVxK | ldDtVx | ldStVx | addIVx | ldFVx | ldBVx | ldMemVx | ldVxMem =>
    simp [encode, decode, decodeFamilyF]
  -- the families of one row each
  all_goals simp [encode, decode]

/-- Settles O1: the decoder undoes the encoder, and the two bytes of a word make the word again. -/
theorem decodeOfEncodeIsTheInstruction : Obligations.DecodeOfEncodeIsTheInstruction := by
  unfold Obligations.DecodeOfEncodeIsTheInstruction
  intro i
  have bytes : decodeBytes (highByte (encode i)) (lowByte (encode i)) = decode (encode i) := by
    rw [decodeBytes, wordOfBytes_bytes]
  exact ⟨decode_encode i, bytes.trans (decode_encode i)⟩

/-! ### Encode after decode -/

theorem packNnn_of_toNat {w : Word} {op : Nibble} (hop : (opField w).toNat = op.toNat) :
    packNnn op (nnnField w) = w := by
  rw [← BitVec.eq_of_toNat_eq hop, packNnn_fields]

theorem packXkk_of_toNat {w : Word} {op : Nibble} {kk : Byte} (hop : (opField w).toNat = op.toNat)
    (hkk : (kkField w).toNat = kk.toNat) : packXkk op (xField w) kk = w := by
  rw [← BitVec.eq_of_toNat_eq hop, ← BitVec.eq_of_toNat_eq hkk, packXkk_fields]

theorem packXyn_of_toNat {w : Word} {op n : Nibble} (hop : (opField w).toNat = op.toNat)
    (hn : (nField w).toNat = n.toNat) : packXyn op (xField w) (yField w) n = w := by
  rw [← BitVec.eq_of_toNat_eq hop, ← BitVec.eq_of_toNat_eq hn, packXyn_fields]

theorem encode_of_decodeFamily0 {w : Word} {i : Instr} (hop : (opField w).toNat = 0x0)
    (h : decodeFamily0 w = .ok i) : encode i = w := by
  unfold decodeFamily0 at h
  split at h <;> cases h
  all_goals exact packXkk_of_toNat hop ‹_›

theorem encode_of_decodeFamily8 {w : Word} {i : Instr} (hop : (opField w).toNat = 0x8)
    (h : decodeFamily8 w = .ok i) : encode i = w := by
  unfold decodeFamily8 at h
  split at h <;> cases h
  all_goals exact packXyn_of_toNat hop ‹_›

theorem encode_of_decodeFamilyE {w : Word} {i : Instr} (hop : (opField w).toNat = 0xE)
    (h : decodeFamilyE w = .ok i) : encode i = w := by
  unfold decodeFamilyE at h
  split at h <;> cases h
  all_goals exact packXkk_of_toNat hop ‹_›

theorem encode_of_decodeFamilyF {w : Word} {i : Instr} (hop : (opField w).toNat = 0xF)
    (h : decodeFamilyF w = .ok i) : encode i = w := by
  unfold decodeFamilyF at h
  split at h <;> cases h
  all_goals exact packXkk_of_toNat hop ‹_›

theorem encode_of_decode {w : Word} {i : Instr} (h : decode w = .ok i) : encode i = w := by
  unfold decode at h
  split at h
  case h_1 hop => exact encode_of_decodeFamily0 hop h
  case h_9 hop => exact encode_of_decodeFamily8 hop h
  case h_15 hop => exact encode_of_decodeFamilyE hop h
  case h_16 =>
    have hop : (opField w).toNat = 0xF := by
      have := (opField w).isLt
      grind
    exact encode_of_decodeFamilyF hop h
  case h_2 hop | h_3 hop | h_11 hop | h_12 hop => cases h; exact packNnn_of_toNat hop
  case h_6 hop | h_10 hop | h_14 hop => cases h; exact packXyn_of_toNat hop rfl
  all_goals cases h; exact packXkk_of_toNat ‹_› rfl

/-- Settles O2: each branch of the decoder is taken on the constants that the encoder packs beside the fields. -/
theorem encodeOfDecodeIsTheWord : Obligations.EncodeOfDecodeIsTheWord := by
  unfold Obligations.EncodeOfDecodeIsTheWord
  intro w i h
  exact encode_of_decode h

/-- A word that decodes is the encoding of one instruction. -/
theorem decode_eq_ok_iff {w : Word} {i : Instr} : decode w = .ok i ↔ encode i = w := by
  constructor
  · exact encode_of_decode
  · rintro rfl
    exact decode_encode i

end Sys2Proof
end

section
/-! PROOFS. The decoder against the opcode map (spec/30_encoding.md R76): a mask keeps what the decoder examines in
the family of its row, so one masked word names one row, and a masked word decodes when the word does. -/

namespace Sys2Proof

/-! ### The rows and the bits examined -/

/-- The word of an instruction selects the instruction's own row. -/
theorem encode_and_opcodeMask : (i : Instr) → encode i &&& opcodeMask i = opcodeMatch i
  | .cls ign => Laws.RowWord.cls ign
  | .ret ign => Laws.RowWord.ret ign
  | .jp nnn => Laws.RowWord.jp nnn
  | .call nnn => Laws.RowWord.call nnn
  | .seVxKk x kk => Laws.RowWord.seVxKk x kk
  | .sneVxKk x kk => Laws.RowWord.sneVxKk x kk
  | .seVxVy x y ign => Laws.RowWord.seVxVy x y ign
  | .ldVxKk x kk => Laws.RowWord.ldVxKk x kk
  | .addVxKk x kk => Laws.RowWord.addVxKk x kk
  | .ldVxVy x y => Laws.RowWord.ldVxVy x y
  | .orVxVy x y => Laws.RowWord.orVxVy x y
  | .andVxVy x y => Laws.RowWord.andVxVy x y
  | .xorVxVy x y => Laws.RowWord.xorVxVy x y
  | .addVxVy x y => Laws.RowWord.addVxVy x y
  | .subVxVy x y => Laws.RowWord.subVxVy x y
  | .shrVx x y => Laws.RowWord.shrVx x y
  | .subnVxVy x y => Laws.RowWord.subnVxVy x y
  | .shlVx x y => Laws.RowWord.shlVx x y
  | .sneVxVy x y ign => Laws.RowWord.sneVxVy x y ign
  | .ldINnn nnn => Laws.RowWord.ldINnn nnn
  | .jpV0Nnn nnn => Laws.RowWord.jpV0Nnn nnn
  | .rndVxKk x kk => Laws.RowWord.rndVxKk x kk
  | .drwVxVyN x y n => Laws.RowWord.drwVxVyN x y n
  | .skpVx x => Laws.RowWord.skpVx x
  | .sknpVx x => Laws.RowWord.sknpVx x
  | .ldVxDt x => Laws.RowWord.ldVxDt x
  | .ldVxK x => Laws.RowWord.ldVxK x
  | .ldDtVx x => Laws.RowWord.ldDtVx x
  | .ldStVx x => Laws.RowWord.ldStVx x
  | .addIVx x => Laws.RowWord.addIVx x
  | .ldFVx x => Laws.RowWord.ldFVx x
  | .ldBVx x => Laws.RowWord.ldBVx x
  | .ldMemVx x => Laws.RowWord.ldMemVx x
  | .ldVxMem x => Laws.RowWord.ldVxMem x

/-- The bits of a word that the decoder examines, which the family nibble decides (R74, R75). -/
def examinedBits (op : Nibble) : Word :=
  match op.toNat with
  | 0x0 | 0xE | 0xF => 0xF0FF
  | 0x8 => 0xF00F
  | _ => 0xF000

/-- The mask of a row is what the decoder examines in the row's family. -/
theorem opcodeMask_eq (i : Instr) : opcodeMask i = examinedBits (opField (opcodeMatch i)) := by
  cases i <;> simp [opcodeMask, opcodeMatch, examinedBits, opField]

theorem opField_and (w m : Word) : opField (w &&& m) = opField w &&& opField m :=
  BitVec.extractLsb'_and ..

theorem nField_and (w m : Word) : nField (w &&& m) = nField w &&& nField m :=
  BitVec.extractLsb'_and ..

theorem kkField_and (w m : Word) : kkField (w &&& m) = kkField w &&& kkField m :=
  BitVec.extractLsb'_and ..

/-- The family nibble is always examined. -/
theorem opField_examinedBits (op : Nibble) : opField (examinedBits op) = BitVec.allOnes 4 := by
  unfold examinedBits
  split <;> rfl

/-- A word that a row selects is of the row's family. -/
theorem opField_of_mask {w : Word} {i : Instr} (h : w &&& opcodeMask i = opcodeMatch i) :
    opField w = opField (opcodeMatch i) := by
  rw [← h, opField_and, opcodeMask_eq, opField_examinedBits, BitVec.and_allOnes]

/-- Whether a word decodes is seen from its examined bits. -/
theorem isOk_decode_and_examinedBits (w : Word) :
    (decode (w &&& examinedBits (opField w))).isOk = (decode w).isOk := by
  have op : opField (w &&& examinedBits (opField w)) = opField w := by
    rw [opField_and, opField_examinedBits, BitVec.and_allOnes]
  have kk : kkField (w &&& 0xF0FF) = kkField w := by
    rw [kkField_and]; exact BitVec.and_allOnes
  have n : nField (w &&& 0xF00F) = nField w := by
    rw [nField_and]; exact BitVec.and_allOnes
  unfold decode
  rw [op]
  unfold examinedBits
  split
  case h_1 hop =>
    simp only [hop, decodeFamily0, kk]
    split <;> rfl
  case h_9 hop =>
    simp only [hop, decodeFamily8, n]
    split <;> rfl
  case h_15 hop =>
    simp only [hop, decodeFamilyE, kk]
    split <;> rfl
  case h_16 =>
    have hop : (opField w).toNat = 0xF := by
      have := (opField w).isLt
      grind
    simp only [hop, decodeFamilyF, kk]
    split <;> rfl
  all_goals rfl

/-- The match of a row is itself a word of the row. -/
theorem isOk_decode_opcodeMatch (i : Instr) : (decode (opcodeMatch i)).isOk = true := by
  cases i <;> (dsimp only [opcodeMatch]; decide)

/-- Settles O3: a word selected by a row decodes, since the row's match does, and to an instruction of that row,
since the family of the word decides what both compare. -/
theorem opcodeMapSelectsTheRow : Obligations.OpcodeMapSelectsTheRow := by
  unfold Obligations.OpcodeMapSelectsTheRow
  intro w i
  constructor
  · intro h
    have hi : w &&& examinedBits (opField w) = opcodeMatch i := by
      rw [opField_of_mask h, ← opcodeMask_eq, h]
    have ok : (decode w).isOk = true := by
      rw [← isOk_decode_and_examinedBits, hi, isOk_decode_opcodeMatch]
    cases hj : decode w with
    | error e => rw [hj] at ok; cases ok
    | ok j =>
      have row := encode_and_opcodeMask j
      have hop : opField w = opField (opcodeMatch j) := opField_of_mask (encode_of_decode hj ▸ row)
      rw [encode_of_decode hj, opcodeMask_eq, ← hop, hi] at row
      exact ⟨j, rfl, row.symm⟩
  · rintro ⟨j, hj, hij⟩
    have row := encode_and_opcodeMask j
    rwa [encode_of_decode hj, opcodeMask_eq, hij, ← opcodeMask_eq] at row

end Sys2Proof
end

section
/-! PROOFS. The unrecognised words (spec/30_encoding.md R77): what each dispatch of the decoder refuses, in the numbers
of the spec's list, and how many words that is. -/

namespace Sys2Proof

/-! ### The fields as numbers -/

theorem toNat_opField (w : Word) : (opField w).toNat = w.toNat / 4096 := by
  have := w.isLt
  rw [opField, BitVec.extractLsb'_toNat, Nat.shiftRight_eq_div_pow]
  omega

theorem toNat_kkField (w : Word) : (kkField w).toNat = w.toNat % 256 :=
  BitVec.extractLsb'_toNat ..

theorem toNat_nField (w : Word) : (nField w).toNat = w.toNat % 16 :=
  BitVec.extractLsb'_toNat ..

/-! ### What each dispatch refuses -/

theorem decodeFamily0_eq_error_iff (w : Word) :
    (∃ e, decodeFamily0 w = .error e) ↔ w.toNat % 256 ≠ 0xE0 ∧ w.toNat % 256 ≠ 0xEE := by
  rw [← toNat_kkField]
  unfold decodeFamily0
  split <;> simp_all

theorem decodeFamily8_eq_error_iff (w : Word) :
    (∃ e, decodeFamily8 w = .error e) ↔ w.toNat % 16 ∈ [0x8, 0x9, 0xA, 0xB, 0xC, 0xD, 0xF] := by
  rw [← toNat_nField]
  have := (nField w).isLt
  unfold decodeFamily8
  generalize (nField w).toNat = n at *
  interval_cases n <;> simp

theorem decodeFamilyE_eq_error_iff (w : Word) :
    (∃ e, decodeFamilyE w = .error e) ↔ w.toNat % 256 ≠ 0x9E ∧ w.toNat % 256 ≠ 0xA1 := by
  rw [← toNat_kkField]
  unfold decodeFamilyE
  split <;> simp_all

theorem decodeFamilyF_eq_error_iff (w : Word) :
    (∃ e, decodeFamilyF w = .error e) ↔
      w.toNat % 256 ∉ [0x07, 0x0A, 0x15, 0x18, 0x1E, 0x29, 0x33, 0x55, 0x65] := by
  rw [← toNat_kkField]
  unfold decodeFamilyF
  split <;> simp_all

theorem decode_eq_error_iff (w : Word) : (∃ e, decode w = .error e) ↔
    (w.toNat / 4096 = 0x0 ∧ w.toNat % 256 ≠ 0xE0 ∧ w.toNat % 256 ≠ 0xEE) ∨
    (w.toNat / 4096 = 0x8 ∧ w.toNat % 16 ∈ [0x8, 0x9, 0xA, 0xB, 0xC, 0xD, 0xF]) ∨
    (w.toNat / 4096 = 0xE ∧ w.toNat % 256 ≠ 0x9E ∧ w.toNat % 256 ≠ 0xA1) ∨
    (w.toNat / 4096 = 0xF ∧ w.toNat % 256 ∉ [0x07, 0x0A, 0x15, 0x18, 0x1E, 0x29, 0x33, 0x55, 0x65]) := by
  rw [← toNat_opField, ← decodeFamily0_eq_error_iff, ← decodeFamily8_eq_error_iff, ← decodeFamilyE_eq_error_iff,
    ← decodeFamilyF_eq_error_iff]
  have hop := (opField w).isLt
  unfold decode
  generalize (opField w).toNat = op at *
  interval_cases op <;> simp

/-! ### How many words that is -/

theorem not_isOk_iff (r : Except Unrecognised Instr) : (!r.isOk) = true ↔ ∃ e, r = .error e := by
  cases r <;> simp [Except.isOk, Except.toBool]

/-- Counting a predicate of the remainder modulo `a` over `m` rounds. -/
theorem countP_range_mul (q : Nat → Bool) (m a : Nat) :
    (List.range (m * a)).countP (fun k => q (k % a)) = m * (List.range a).countP q := by
  induction m with
  | zero => simp
  | succ m ih =>
    have round : (List.range a).countP ((fun k => q (k % a)) ∘ (m * a + ·)) = (List.range a).countP q := by
      apply List.countP_congr
      intro k hk
      simp [Nat.mod_eq_of_lt (List.mem_range.mp hk)]
    rw [Nat.succ_mul, List.range_add, List.countP_append, List.countP_map, ih, round, Nat.succ_mul]

/-- The numbers below `a` that are not among some of them. -/
theorem countP_range_not_mem {L : List Nat} {a : Nat} (hn : L.Nodup) (hL : ∀ n ∈ L, n < a) :
    (List.range a).countP (fun n => !decide (n ∈ L)) = a - L.length := by
  have perm : ((List.range a).filter (· ∈ L)).Perm L := by
    rw [List.perm_ext_iff_of_nodup (List.nodup_range.filter _) hn]
    intro n
    simpa using hL n
  have inside : (List.range a).countP (· ∈ L) = L.length := by
    rw [List.countP_eq_length_filter, perm.length_eq]
  have all := List.length_eq_countP_add_countP (l := List.range a) (· ∈ L)
  simp only [List.length_range, inside, decide_eq_true_eq, decide_not] at all
  omega

/-- The number of unrecognised words of family `op`, when the second dispatch recognises the values `L` of a field of
`a` values: `m` rounds of the others. -/
theorem countP_unrecognised {op m a : Nat} (L : List Nat) (hop : op < 16) (hm : m * a = 4096) (hn : L.Nodup)
    (hL : ∀ n ∈ L, n < a)
    (hq : ∀ w : Word, w.toNat / 4096 = op → ((∃ e, decode w = .error e) ↔ w.toNat % a ∉ L)) :
    (List.range 4096).countP (fun k => !(decode (BitVec.ofNat 16 (4096 * op + k))).isOk) = m * (a - L.length) := by
  rw [← countP_range_not_mem hn hL, ← countP_range_mul, hm]
  apply List.countP_congr
  intro k hk
  have hk := List.mem_range.mp hk
  have value : (BitVec.ofNat 16 (4096 * op + k)).toNat = 4096 * op + k := by
    rw [BitVec.toNat_ofNat]
    omega
  have rest : (4096 * op + k) % a = k % a := by
    rw [← hm, Nat.mul_right_comm, Nat.mul_add_mod_self_right]
  rw [not_isOk_iff, hq _ (by omega), value, rest, Bool.not_eq_true', decide_eq_false_iff_not]

/-- Settles O4: the list is that of the decoder's refusals, family by family, and each count is that of the rounds of
the byte or nibble examined. -/
theorem unrecognisedSpaceIsTheSpecsList : Obligations.UnrecognisedSpaceIsTheSpecsList := by
  unfold Obligations.UnrecognisedSpaceIsTheSpecsList
  refine ⟨decode_eq_error_iff, ?_, ?_, ?_, ?_⟩
  · have count := countP_unrecognised (op := 0x0) (m := 16) (a := 256) [0xE0, 0xEE] (by decide) rfl (by decide)
      (by decide) (fun w hw => by rw [decode_eq_error_iff, hw]; simp)
    simp only [Nat.mul_zero, Nat.zero_add] at count
    exact count
  · have others : ∀ n < 16, n ∈ [0x8, 0x9, 0xA, 0xB, 0xC, 0xD, 0xF] ↔
        n ∉ [0x0, 0x1, 0x2, 0x3, 0x4, 0x5, 0x6, 0x7, 0xE] := by decide
    exact countP_unrecognised (op := 0x8) (m := 256) (a := 16) [0x0, 0x1, 0x2, 0x3, 0x4, 0x5, 0x6, 0x7, 0xE]
      (by decide) rfl (by decide) (by decide)
      (fun w hw => by rw [decode_eq_error_iff, hw, ← others _ (Nat.mod_lt _ (by decide))]; simp)
  · exact countP_unrecognised (op := 0xE) (m := 16) (a := 256) [0x9E, 0xA1] (by decide) rfl (by decide)
      (by decide) (fun w hw => by rw [decode_eq_error_iff, hw]; simp)
  · exact countP_unrecognised (op := 0xF) (m := 16) (a := 256)
      [0x07, 0x0A, 0x15, 0x18, 0x1E, 0x29, 0x33, 0x55, 0x65] (by decide) rfl (by decide)
      (by decide) (fun w hw => by rw [decode_eq_error_iff, hw]; simp)

/-- Settles O5: words written out, each decoded. -/
theorem spelledOutWordsDecode : Obligations.SpelledOutWordsDecode := by
  unfold Obligations.SpelledOutWordsDecode
  decide

end Sys2Proof
end

section
/-! PROOFS. The register, logic and arithmetic instructions (spec/41_register_logic.md R101, R103 to R112): each is
one register write, or one write of a result and then of the flag, of a value that is read here as a number or bit
by bit. -/

namespace Sys2Proof.Machine

open Sys2Proof.Safety

/-! ### One register write -/

theorem exec_addVxKk (x : Nibble) (kk : Byte) (s : State) :
    exec (.addVxKk x kk) s = .next (State.setReg s x (State.reg s x + kk)) := rfl

theorem exec_orVxVy (x y : Nibble) (s : State) :
    exec (.orVxVy x y) s = .next (State.setReg s x (State.reg s x ||| State.reg s y)) := rfl

theorem exec_andVxVy (x y : Nibble) (s : State) :
    exec (.andVxVy x y) s = .next (State.setReg s x (State.reg s x &&& State.reg s y)) := rfl

theorem exec_xorVxVy (x y : Nibble) (s : State) :
    exec (.xorVxVy x y) s = .next (State.setReg s x (State.reg s x ^^^ State.reg s y)) := rfl

theorem exec_rndVxKk (x : Nibble) (kk : Byte) (s : State) :
    exec (.rndVxKk x kk) s = .next (State.setReg s x (Config.rnd s.stepNo &&& kk)) := rfl

/-- Settles O26: the 8-bit sum is the sum modulo 256. -/
theorem addVxKkWrapsAndWritesNoFlag : Obligations.AddVxKkWrapsAndWritesNoFlag := by
  unfold Obligations.AddVxKkWrapsAndWritesNoFlag
  intro x kk s
  obtain ⟨t, ht, hx, only⟩ := exec_of_setReg (exec_addVxKk x kk s)
  refine ⟨t, ht, ?_, only⟩
  rw [hx]
  exact BitVec.toNat_add ..

/-- Settles O28: each execute phase is one register write, of a value whose bits are those of the operands. -/
theorem bitwiseLogicWritesOnlyTheDestination : Obligations.BitwiseLogicWritesOnlyTheDestination := by
  unfold Obligations.BitwiseLogicWritesOnlyTheDestination
  intro x y s
  refine ⟨?_, ?_, ?_⟩
  · obtain ⟨t, ht, hx, only⟩ := exec_of_setReg (exec_orVxVy x y s)
    exact ⟨t, ht, only, fun b _ => by rw [hx, BitVec.getLsbD_or]⟩
  · obtain ⟨t, ht, hx, only⟩ := exec_of_setReg (exec_andVxVy x y s)
    exact ⟨t, ht, only, fun b _ => by rw [hx, BitVec.getLsbD_and]⟩
  · obtain ⟨t, ht, hx, only⟩ := exec_of_setReg (exec_xorVxVy x y s)
    exact ⟨t, ht, only, fun b _ => by rw [hx, BitVec.getLsbD_xor]⟩

/-- Settles O33: one register write of the masked draw, whatever the draw is. -/
theorem rndMasksTheDraw : Obligations.RndMasksTheDraw := by
  unfold Obligations.RndMasksTheDraw
  intro x kk s
  obtain ⟨t, ht, hx, only⟩ := exec_of_setReg (exec_rndVxKk x kk s)
  exact ⟨t, ht, fun b _ => by rw [hx, BitVec.getLsbD_and], only⟩

/-! ### A result and the flag -/

/-- A write of a result and then of the flag leaves every other register and all the rest. -/
theorem onlyRegs_setRegFlag (s : State) (x : Nibble) (b : Byte) (f : Bool) :
    OnlyRegs [x, 0xF] s (State.setRegFlag s x b f) := by
  have regs : RegsKept [x, 0xF] s (State.setRegFlag s x b f) := by
    intro r hr
    simp only [List.mem_cons, List.not_mem_nil, or_false, not_or] at hr
    exact reg_setRegFlag_ne s b f hr.1 hr.2
  exact ⟨regs, fun _ => rfl, rfl⟩

/-- An execute phase that writes a result and then the flag: the flag is what `VF` holds, and the result what any
other destination holds (R27). -/
theorem exec_of_setRegFlag {i : Instr} {s : State} {x : Nibble} {b : Byte} {f : Bool}
    (h : exec i s = .next (State.setRegFlag s x b f)) :
    ∃ t, exec i s = .next t ∧ (x ≠ 0xF → State.reg t x = b) ∧ State.reg t 0xF = flagByte f ∧
      OnlyRegs [x, 0xF] s t :=
  ⟨_, h, reg_setRegFlag_dest s b f, reg_setRegFlag_flag s x b f, onlyRegs_setRegFlag s x b f⟩

theorem exec_addVxVy (x y : Nibble) (s : State) :
    exec (.addVxVy x y) s = .next (State.setRegFlag s x (State.reg s x + State.reg s y)
      (carryFlag (State.reg s x) (State.reg s y))) := rfl

theorem exec_subVxVy (x y : Nibble) (s : State) :
    exec (.subVxVy x y) s = .next (State.setRegFlag s x (State.reg s x - State.reg s y)
      (subFlag (State.reg s x) (State.reg s y))) := rfl

theorem exec_subnVxVy (x y : Nibble) (s : State) :
    exec (.subnVxVy x y) s = .next (State.setRegFlag s x (State.reg s y - State.reg s x)
      (subnFlag (State.reg s x) (State.reg s y))) := rfl

theorem exec_shrVx (x y : Nibble) (s : State) :
    exec (.shrVx x y) s = .next (State.setRegFlag s x (State.reg s x >>> 1) (shrFlag (State.reg s x))) := rfl

theorem exec_shlVx (x y : Nibble) (s : State) :
    exec (.shlVx x y) s = .next (State.setRegFlag s x (State.reg s x <<< 1) (shlFlag (State.reg s x))) := rfl

/-! ### Flags and results as numbers -/

theorem flagByte_eq_one_iff (f : Bool) : flagByte f = 1 ↔ f = true := by
  cases f <;> decide

theorem toNat_flagByte_decide (p : Prop) [Decidable p] : (flagByte (decide p)).toNat = if p then 1 else 0 := by
  by_cases h : p <;> simp [flagByte, h]

theorem toNat_flagByte_shrFlag (a : Byte) : (flagByte (shrFlag a)).toNat = a.toNat % 2 := by
  rw [shrFlag, BitVec.getLsbD, Nat.testBit_zero, toNat_flagByte_decide]
  split <;> omega

theorem toNat_flagByte_shlFlag (a : Byte) : (flagByte (shlFlag a)).toNat = a.toNat / 128 := by
  have := a.isLt
  rw [shlFlag, BitVec.getLsbD, Nat.testBit_eq_decide_div_mod_eq, toNat_flagByte_decide]
  split <;> omega

/-- The 8-bit difference as a number: 256 is borrowed when the subtrahend is the greater. -/
theorem toNat_byte_sub (a b : Byte) :
    (a - b).toNat = if a.toNat ≥ b.toNat then a.toNat - b.toNat else a.toNat + 256 - b.toNat := by
  have := a.isLt
  have := b.isLt
  rw [BitVec.toNat_sub]
  split <;> omega

/-- Settles O29: the 8-bit sum is the sum modulo 256, and the flag the carry. -/
theorem addVxVySetsSumAndCarry : Obligations.AddVxVySetsSumAndCarry := by
  unfold Obligations.AddVxVySetsSumAndCarry
  intro x y s
  obtain ⟨t, ht, hx, hf, only⟩ := exec_of_setRegFlag (exec_addVxVy x y s)
  refine ⟨t, ht, fun hne => ?_, ?_, only⟩
  · rw [hx hne]
    exact BitVec.toNat_add ..
  · rw [hf]
    exact toNat_flagByte_decide _

/-- Settles O30: the 8-bit difference, and the flag of the strict comparison. -/
theorem subVxVySetsDifferenceAndStrictFlag : Obligations.SubVxVySetsDifferenceAndStrictFlag := by
  unfold Obligations.SubVxVySetsDifferenceAndStrictFlag
  intro x y s
  obtain ⟨t, ht, hx, hf, only⟩ := exec_of_setRegFlag (exec_subVxVy x y s)
  refine ⟨t, ht, fun hne => ?_, ?_, only⟩
  · rw [hx hne]
    exact toNat_byte_sub ..
  · rw [hf]
    exact toNat_flagByte_decide _

/-- Settles O31: the 8-bit difference the other way round, and the flag of the source's comparison. -/
theorem subnVxVySetsReversedDifferenceAndFlag : Obligations.SubnVxVySetsReversedDifferenceAndFlag := by
  unfold Obligations.SubnVxVySetsReversedDifferenceAndFlag
  intro x y s
  obtain ⟨t, ht, hx, hf, only⟩ := exec_of_setRegFlag (exec_subnVxVy x y s)
  refine ⟨t, ht, fun hne => ?_, ?_, only⟩
  · rw [hx hne]
    exact toNat_byte_sub ..
  · rw [hf]
    exact toNat_flagByte_decide _

/-- Settles O32: the shifts halve and double, and the flag is the bit lost. -/
theorem shiftsByOneKeepTheBitInVF : Obligations.ShiftsByOneKeepTheBitInVF := by
  unfold Obligations.ShiftsByOneKeepTheBitInVF
  intro x y s
  constructor
  · obtain ⟨t, ht, hx, hf, only⟩ := exec_of_setRegFlag (exec_shrVx x y s)
    refine ⟨t, ht, fun hne => ?_, ?_, only⟩
    · rw [hx hne, BitVec.toNat_ushiftRight, Nat.shiftRight_eq_div_pow, Nat.pow_one]
    · rw [hf, toNat_flagByte_shrFlag]
  · obtain ⟨t, ht, hx, hf, only⟩ := exec_of_setRegFlag (exec_shlVx x y s)
    refine ⟨t, ht, fun hne => ?_, ?_, only⟩
    · rw [hx hne, BitVec.toNat_shiftLeft, Nat.shiftLeft_eq, Nat.pow_one]
    · rw [hf, toNat_flagByte_shlFlag]

/-! ### The same register twice -/

theorem exec_orVxVy_self (x : Nibble) (s : State) : exec (.orVxVy x x) s = .next s := by
  rw [exec_orVxVy, BitVec.or_self, setReg_reg]

theorem exec_andVxVy_self (x : Nibble) (s : State) : exec (.andVxVy x x) s = .next s := by
  rw [exec_andVxVy, BitVec.and_self, setReg_reg]

theorem carryFlag_self_iff (a : Byte) : flagByte (carryFlag a a) = 1 ↔ a.toNat ≥ 128 := by
  rw [flagByte_eq_one_iff, carryFlag, decide_eq_true_iff]
  omega

theorem subFlag_self (a : Byte) : subFlag a a = false := decide_eq_false (Nat.lt_irrefl _)

theorem subnFlag_self (a : Byte) : subnFlag a a = true := decide_eq_true (Nat.le_refl _)

/-- Settles O34: the rows of the table of aliasing (R113); SUB writes 0 and then the flag 0, so `x = 0xF` ends at 0
too. -/
theorem sameRegisterTwice : Obligations.SameRegisterTwice := by
  unfold Obligations.SameRegisterTwice
  intro x s
  refine ⟨exec_ldVxVy_self x s, exec_orVxVy_self x s, exec_andVxVy_self x s, ?_, ?_, ?_, ?_⟩
  · obtain ⟨t, ht, hx, -⟩ := exec_of_setReg (exec_xorVxVy x x s)
    exact ⟨t, ht, hx.trans (BitVec.xor_self ..)⟩
  · obtain ⟨t, ht, hx, hf, -⟩ := exec_of_setRegFlag (exec_addVxVy x x s)
    refine ⟨t, ht, fun hne => ?_, ?_⟩
    · rw [hx hne, BitVec.toNat_add, Nat.two_mul]
    · rw [hf, carryFlag_self_iff]
  · obtain ⟨t, ht, hx, hf, -⟩ := exec_of_setRegFlag (exec_subVxVy x x s)
    rw [subFlag_self] at hf
    refine ⟨t, ht, ?_, hf⟩
    by_cases hne : x = 0xF
    · rw [hne]
      exact hf
    · rw [hx hne, BitVec.sub_self]
      rfl
  · obtain ⟨t, ht, hx, hf, -⟩ := exec_of_setRegFlag (exec_subnVxVy x x s)
    rw [subnFlag_self] at hf
    refine ⟨t, ht, fun hne => ?_, hf⟩
    rw [hx hne, BitVec.sub_self]
    rfl

end Sys2Proof.Machine
end

section
/-! PROOFS. The other skips, the jumps and the call stack (spec/42_control_flow.md R120 to R123, R126 to R129). -/

namespace Sys2Proof

/-! ### A packed word as a number -/

theorem toNat_packNnn (op : Nibble) (nnn : Addr) : (packNnn op nnn).toNat = op.toNat * 4096 + nnn.toNat := by
  rw [packNnn, BitVec.toNat_append, ← Nat.shiftLeft_add_eq_or_of_lt nnn.isLt, Nat.shiftLeft_eq]

theorem toNat_packXkk (op x : Nibble) (kk : Byte) :
    (packXkk op x kk).toNat = op.toNat * 4096 + x.toNat * 256 + kk.toNat := by
  rw [packXkk, BitVec.toNat_append, ← Nat.shiftLeft_add_eq_or_of_lt kk.isLt, BitVec.toNat_append,
    ← Nat.shiftLeft_add_eq_or_of_lt x.isLt, Nat.shiftLeft_eq, Nat.shiftLeft_eq]
  omega

end Sys2Proof

namespace Sys2Proof.Machine

open Sys2Proof.Safety

/-! ### The skips on registers and keys -/

theorem exec_seVxVy (x y ign : Nibble) (s : State) :
    exec (.seVxVy x y ign) s = .next (State.skipIf s (State.reg s x == State.reg s y)) := rfl

theorem exec_sneVxVy (x y ign : Nibble) (s : State) :
    exec (.sneVxVy x y ign) s = .next (State.skipIf s (State.reg s x != State.reg s y)) := rfl

/-- Settles O41: each execute phase is one skip, on equal registers for SE and on different ones for SNE. -/
theorem skipsOnTwoRegisters : Obligations.SkipsOnTwoRegisters := by
  unfold Obligations.SkipsOnTwoRegisters
  intro x y ign s
  exact ⟨exec_of_skipIf (exec_seVxVy x y ign s) (beq_iff_toNat_eq _ _),
    exec_of_skipIf (exec_sneVxVy x y ign s) (bne_iff_toNat_ne _ _)⟩

theorem exec_skpVx (x : Nibble) (s : State) :
    exec (.skpVx x) s = .next (State.skipIf s (State.keyPressed s x)) := rfl

theorem exec_sknpVx (x : Nibble) (s : State) :
    exec (.sknpVx x) s = .next (State.skipIf s (!State.keyPressed s x)) := rfl

theorem keyPressed_iff (s : State) (x : Nibble) :
    State.keyPressed s x = true ↔ s.key.getLsbD ((State.reg s x).toNat % 16) = true := by
  rw [State.keyPressed, toNat_lowNibble]

theorem not_keyPressed_iff (s : State) (x : Nibble) :
    (!State.keyPressed s x) = true ↔ s.key.getLsbD ((State.reg s x).toNat % 16) = false := by
  rw [State.keyPressed, toNat_lowNibble, Bool.not_eq_true']

/-- Settles O42: each execute phase is one skip, on the key of the register's low nibble. -/
theorem skipsOnAKey : Obligations.SkipsOnAKey := by
  unfold Obligations.SkipsOnAKey
  intro x s
  exact ⟨exec_of_skipIf (exec_skpVx x s) (keyPressed_iff s x),
    exec_of_skipIf (exec_sknpVx x s) (not_keyPressed_iff s x)⟩

/-! ### The jumps -/

theorem toNat_zextAddr (nnn : Addr) : (zextAddr nnn).toNat = nnn.toNat :=
  BitVec.toNat_setWidth_of_le (by decide)

theorem toNat_zextByte (b : Byte) : (zextByte b).toNat = b.toNat :=
  BitVec.toNat_setWidth_of_le (by decide)

/-- An execute phase that is one write of `pc`. -/
theorem exec_of_setPc {i : Instr} {s : State} {w : Word} (h : exec i s = .next { s with pc := w }) :
    ∃ t, exec i s = .next t ∧ t.pc.toNat = w.toNat ∧ OnlyPc s t :=
  ⟨_, h, rfl, fun _ => rfl, rfl⟩

theorem exec_jp (nnn : Addr) (s : State) : exec (.jp nnn) s = .next { s with pc := zextAddr nnn } := rfl

theorem exec_jpV0Nnn (nnn : Addr) (s : State) :
    exec (.jpV0Nnn nnn) s = .next { s with pc := zextAddr nnn + zextByte (State.reg s 0) } := rfl

/-- Settles O35: one write of the zero-extended address to `pc`. -/
theorem jpGoesToTheAddress : Obligations.JpGoesToTheAddress := by
  unfold Obligations.JpGoesToTheAddress
  constructor
  · intro nnn s
    rw [← toNat_zextAddr nnn]
    exact exec_of_setPc (exec_jp nnn s)
  · -- R120's example word
    decide

/-- Settles O36: one write of the sum to `pc`; a 12-bit and an 8-bit number sum to less than 65536. -/
theorem jpV0AddsRegisterZero : Obligations.JpV0AddsRegisterZero := by
  unfold Obligations.JpV0AddsRegisterZero
  intro nnn s
  have sum : (zextAddr nnn + zextByte (State.reg s 0)).toNat = nnn.toNat + (State.reg s 0).toNat := by
    rw [BitVec.toNat_add, toNat_zextAddr, toNat_zextByte]
    omega
  rw [← sum]
  exact exec_of_setPc (exec_jpV0Nnn nnn s)

/-! ### The call stack -/

/-- An execute phase that only emits a diagnostic: it names the address before the advanced `pc`. -/
theorem exec_of_emitDiag {i : Instr} {s : State} {k : DiagKind} {w : Word}
    (h : exec i s = .next (State.emitDiag s k w)) :
    ∃ t d, exec i s = .next t ∧ t = { s with diag := some d } ∧ d.kind = k ∧ d.word.toNat = w.toNat ∧
      d.addr + 2 = s.pc ∧ MemKept s t :=
  ⟨_, { kind := k, word := w, addr := s.pc - 2 }, h, rfl, rfl, rfl, BitVec.sub_add_cancel s.pc 2, fun _ => rfl⟩

/-- Settles O37: the push and the jump on a stack with room, the diagnostic on a full one. -/
theorem callPushesOrOverflows : Obligations.CallPushesOrOverflows := by
  unfold Obligations.CallPushesOrOverflows
  intro nnn s
  constructor
  · intro h
    refine ⟨_, exec_call_of_lt nnn h, ?_, rfl, toNat_zextAddr nnn, ?_, fun _ => rfl, rfl⟩
    · exact Vector.getElem_set_self h
    · intro k hk
      exact Vector.getElem_set_ne h k.isLt hk.symm
  · intro h
    have word : (encode (.call nnn)).toNat = 0x2000 + nnn.toNat := toNat_packNnn 0x2 nnn
    rw [← word]
    exact exec_of_emitDiag (exec_call_of_full nnn (by omega))

/-- Settles O38: the pop on a stack in use, the diagnostic on an empty one. -/
theorem retPopsOrUnderflows : Obligations.RetPopsOrUnderflows := by
  unfold Obligations.RetPopsOrUnderflows
  intro ign s
  constructor
  · intro h
    exact ⟨_, exec_ret_of_pos ign h, rfl, rfl, fun _ => rfl, rfl⟩
  · intro h
    have word : (encode (.ret ign)).toNat = 0x00EE + 256 * ign.toNat := by
      rw [encode, toNat_packXkk]
      change 0 * 4096 + ign.toNat * 256 + 0xEE = _
      omega
    rw [← word]
    exact exec_of_emitDiag (exec_ret_of_empty ign (by omega))

/-- A pop after a push and a jump: `pc` and `SP` are as before the push, the slot keeps what was pushed. -/
theorem popPc_pushPc {s : State} (h : s.sp.val < 16) (w : Word) :
    State.popPc { State.pushPc s h with pc := w } (Nat.succ_pos s.sp.val)
      = { s with stack := s.stack.set s.sp.val s.pc h } := by
  have top : (s.stack.set s.sp.val s.pc h)[s.sp.val] = s.pc := Vector.getElem_set_self h
  simp [State.popPc, State.pushPc, top]

/-- Settles O39: the RET after the CALL pops the slot that the CALL pushed. -/
theorem retUndoesCall : Obligations.RetUndoesCall := by
  unfold Obligations.RetUndoesCall
  intro nnn ign s h
  have ret := exec_ret_of_pos ign (s := { State.pushPc s h with pc := zextAddr nnn }) (Nat.succ_pos s.sp.val)
  rw [popPc_pushPc] at ret
  refine ⟨_, _, exec_call_of_lt nnn h, ret, rfl, rfl, ?_, ?_, rfl⟩
  · exact Vector.getElem_set_self h
  · intro k hk
    exact Vector.getElem_set_ne h k.isLt hk.symm

end Sys2Proof.Machine
end

section
/-! PROOFS. What the execute phase can change (spec/10_state.md R32 to R36, spec/20_memory.md R52): said once, for
every instruction and component, and the whole-machine rules read off it. -/

namespace Sys2Proof.Machine

open Sys2Proof.Safety

/-! ### The frame of the execute phase -/

/-- What an instruction leaves as it was: each component with the instructions that may write it. -/
structure ExecFrame (i : Instr) (s t : State) : Prop where
  mem : (∀ x, i ≠ .ldBVx x) → (∀ x, i ≠ .ldMemVx x) → t.mem = s.mem
  stack : (∀ nnn, i ≠ .call nnn) → (∀ ign, i ≠ .ret ign) → t.stack = s.stack ∧ t.sp = s.sp
  screen : (∀ ign, i ≠ .cls ign) → (∀ x y n, i ≠ .drwVxVyN x y n) → t.fb = s.fb ∧ t.rp = s.rp
  index : (∀ nnn, i ≠ .ldINnn nnn) → (∀ x, i ≠ .addIVx x) → (∀ x, i ≠ .ldFVx x) → t.index = s.index
  dt : (∀ x, i ≠ .ldDtVx x) → t.dt = s.dt
  st : (∀ x, i ≠ .ldStVx x) → t.st = s.st
  diag : (∀ nnn, i ≠ .call nnn) → (∀ ign, i ≠ .ret ign) → (∀ x, i ≠ .ldVxK x) → t.diag = s.diag
  key : t.key = s.key
  wait : t.wait = s.wait
  beep : t.beep = s.beep
  stepNo : t.stepNo = s.stepNo

section Cases
variable {i : Instr} {s : State}

/-- Registers and `pc` have no writers of their own in the frame: any instruction may write them. -/
theorem ExecFrame.of_v_pc (v : Vector Byte 16) (pc : Word) : ExecFrame i s { s with v := v, pc := pc } where
  mem _ _ := rfl
  stack _ _ := ⟨rfl, rfl⟩
  screen _ _ := ⟨rfl, rfl⟩
  index _ _ _ := rfl
  dt _ := rfl
  st _ := rfl
  diag _ _ _ := rfl
  key := rfl
  wait := rfl
  beep := rfl
  stepNo := rfl

theorem ExecFrame.of_skipIf (c : Bool) : ExecFrame i s (State.skipIf s c) := by
  cases c with
  | true => exact .of_v_pc s.v (s.pc + 2)
  | false => exact .of_v_pc s.v s.pc

theorem ExecFrame.of_setRegs (k : Nat) (bs : List Byte) : ExecFrame i s (State.setRegs s k bs) := by
  rw [setRegs_frame]
  exact .of_v_pc _ s.pc

end Cases

/-- Every execute phase keeps to the frame. -/
theorem exec_frame {i : Instr} {s t : State} (h : exec i s = .next t) : ExecFrame i s t := by
  cases i
  case ldVxKk | addVxKk | ldVxVy | orVxVy | andVxVy | xorVxVy | addVxVy | subVxVy | shrVx | subnVxVy | shlVx |
      rndVxKk | ldVxDt =>
    cases h; exact .of_v_pc _ s.pc
  case jp | jpV0Nnn =>
    cases h; exact .of_v_pc s.v _
  case seVxKk | sneVxKk | seVxVy | sneVxVy | skpVx | sknpVx =>
    cases h; exact .of_skipIf _
  case ldVxMem =>
    cases h; exact .of_setRegs _ _
  case call nnn =>
    by_cases hs : s.sp.val < 16
    · rw [exec_call_of_lt nnn hs] at h
      cases h
      constructor <;> simp
    · rw [exec_call_of_full nnn hs] at h
      cases h
      constructor <;> simp
  case ret ign =>
    by_cases hs : 0 < s.sp.val
    · rw [exec_ret_of_pos ign hs] at h
      cases h
      constructor <;> simp
    · rw [exec_ret_of_empty ign hs] at h
      cases h
      constructor <;> simp
  -- the other rows each write one component that the frame names
  all_goals
    cases h
    constructor <;> simp

/-! ### The whole-machine rules -/

/-- Settles O16: memory by the frame of the execute phase. -/
theorem onlyBcdAndBlockStoreWriteMemory : Obligations.OnlyBcdAndBlockStoreWriteMemory := by
  unfold Obligations.OnlyBcdAndBlockStoreWriteMemory
  intro i s
  obtain ⟨t, ht⟩ := exec_answers i s
  refine ⟨t, ht, fun hb hm => ?_⟩
  have mem := (exec_frame ht).mem hb hm
  exact ⟨fun a => by rw [mem], mem⟩

/-- Settles O17: the frame of the execute phase, component by component. -/
theorem eachComponentHasItsOwnWriters : Obligations.EachComponentHasItsOwnWriters := by
  unfold Obligations.EachComponentHasItsOwnWriters
  intro i s
  obtain ⟨t, ht⟩ := exec_answers i s
  have frame := exec_frame ht
  exact ⟨t, ht, frame.stack, frame.screen, frame.index, frame.dt, frame.st, frame.key, frame.beep, frame.wait⟩

/-! ### Who reads the keys and the draw -/

/-- The state with other keys and another draw to come. -/
def State.withInputs (s : State) (keys : BitVec 16) (k : Nat) : State := { s with key := keys, stepNo := k }

theorem skipIf_withInputs (s : State) (c : Bool) (keys : BitVec 16) (k : Nat) :
    State.skipIf (s.withInputs keys k) c = (State.skipIf s c).withInputs keys k := by
  cases c <;> rfl

theorem setRegs_withInputs (s : State) (j : Nat) (bs : List Byte) (keys : BitVec 16) (k : Nat) :
    State.setRegs (s.withInputs keys k) j bs = (State.setRegs s j bs).withInputs keys k := by
  induction bs generalizing s j with
  | nil => rfl
  | cons b bs ih => exact ih (State.setReg s (BitVec.ofNat 4 j) b) (j + 1)

/-- An execute phase on other keys and another draw does the same, the key skips apart if the keys differ and RND
if the draw does. -/
theorem exec_withInputs {i : Instr} {s t : State} {keys : BitVec 16} {k : Nat} (h : exec i s = .next t)
    (hkeys : keys = s.key ∨ (∀ x, i ≠ .skpVx x) ∧ (∀ x, i ≠ .sknpVx x))
    (hk : k = s.stepNo ∨ ∀ x kk, i ≠ .rndVxKk x kk) :
    exec i (s.withInputs keys k) = .next (t.withInputs keys k) := by
  cases i
  case skpVx x =>
    obtain rfl | ⟨hx, -⟩ := hkeys
    · cases h; exact congrArg _ (skipIf_withInputs s _ _ k)
    · exact absurd rfl (hx x)
  case sknpVx x =>
    obtain rfl | ⟨-, hx⟩ := hkeys
    · cases h; exact congrArg _ (skipIf_withInputs s _ _ k)
    · exact absurd rfl (hx x)
  case rndVxKk x kk =>
    obtain rfl | hx := hk
    · cases h; rfl
    · exact absurd rfl (hx x kk)
  case seVxKk | sneVxKk | seVxVy | sneVxVy =>
    cases h; exact congrArg _ (skipIf_withInputs s _ keys k)
  case ldVxMem =>
    cases h; exact congrArg _ (setRegs_withInputs s _ _ keys k)
  case call nnn =>
    by_cases hs : s.sp.val < 16
    · rw [exec_call_of_lt nnn hs] at h
      cases h
      exact exec_call_of_lt nnn (s := s.withInputs keys k) hs
    · rw [exec_call_of_full nnn hs] at h
      cases h
      exact exec_call_of_full nnn (s := s.withInputs keys k) hs
  case ret ign =>
    by_cases hs : 0 < s.sp.val
    · rw [exec_ret_of_pos ign hs] at h
      cases h
      exact exec_ret_of_pos ign (s := s.withInputs keys k) hs
    · rw [exec_ret_of_empty ign hs] at h
      cases h
      exact exec_ret_of_empty ign (s := s.withInputs keys k) hs
  -- every other row reads and writes neither
  all_goals
    cases h
    rfl

/-- Settles O18: another draw and the same keys. -/
theorem onlyRndReadsTheDraw : Obligations.OnlyRndReadsTheDraw := by
  unfold Obligations.OnlyRndReadsTheDraw
  intro i s k hi
  obtain ⟨t, ht⟩ := exec_answers i s
  have other := exec_withInputs ht (.inl rfl) (k := k) (.inr hi)
  have keys : t.withInputs s.key k = { t with stepNo := k } := by
    rw [← (exec_frame ht).key]; rfl
  exact ⟨t, ht, other.trans (congrArg _ keys)⟩

/-- Settles O19: other keys and the same draw. -/
theorem onlyKeySkipsReadTheKeys : Obligations.OnlyKeySkipsReadTheKeys := by
  unfold Obligations.OnlyKeySkipsReadTheKeys
  intro i s keys hskp hsknp
  obtain ⟨t, ht⟩ := exec_answers i s
  have other := exec_withInputs ht (keys := keys) (.inr ⟨hskp, hsknp⟩) (.inl rfl)
  have draw : t.withInputs keys s.stepNo = { t with key := keys } := by
    rw [← (exec_frame ht).stepNo]; rfl
  exact ⟨t, ht, other.trans (congrArg _ draw)⟩

end Sys2Proof.Machine
end

section
/-! PROOFS. The step (spec/40_step_cycle.md R90 to R94, spec/60_exceptions.md R170, R180): its three kinds, what each
leaves in the components that the phases around the execute phase write, and the statements about whole steps. -/

namespace Sys2Proof.Machine

open Sys2Proof.Safety

/-! ### What a step runs -/

theorem runs_of_wait {s : State} {r : Nibble} (h : s.wait = some r) : runs s = none := by
  simp only [runs, h]

theorem runs_of_instr {s : State} {i : Instr} (h : s.wait = none) (hd : decode (State.fetchWord s) = .ok i) :
    runs s = some i := by
  simp only [runs, h, hd, Except.toOption]

theorem runs_of_unrecognised {s : State} {e : Unrecognised} (h : s.wait = none)
    (hd : decode (State.fetchWord s) = .error e) : runs s = none := by
  simp only [runs, h, hd, Except.toOption]

theorem runs_eq_some_iff {s : State} {i : Instr} :
    runs s = some i ↔ s.wait = none ∧ decode (State.fetchWord s) = .ok i := by
  constructor
  · intro hr
    cases hw : s.wait with
    | some r => rw [runs_of_wait hw] at hr; cases hr
    | none =>
      cases hd : decode (State.fetchWord s) with
      | error e => rw [runs_of_unrecognised hw hd] at hr; cases hr
      | ok j => rw [runs_of_instr hw hd] at hr; cases hr; exact ⟨rfl, rfl⟩
  · rintro ⟨hw, hd⟩
    exact runs_of_instr hw hd

/-- The state that the execute phase of a step begins with (R90). -/
def State.atExec (s : State) : State := State.advancePc (State.beginStep s)

/-- The step of an instruction: what its execute phase answers, and the end of the step. -/
theorem step_of_runs {s : State} {i : Instr} (h : runs s = some i) :
    ∃ t, exec i s.atExec = .next t ∧ step s = .next (State.endStep t) := by
  obtain ⟨hw, hd⟩ := runs_eq_some_iff.mp h
  obtain ⟨t, ht⟩ := exec_answers i s.atExec
  refine ⟨t, ht, ?_⟩
  rw [step_of_instr hw hd]
  exact congrArg endStepAfter ht

/-- What the end of a step finds, by the kind of the step: the state `t` is that before the tick. -/
inductive BeforeTick (s : State) : State → Prop
  | wait (r : Nibble) : s.wait = some r → runs s = none → BeforeTick s (State.pollKeys (State.beginStep s) r)
  | instr {t : State} (i : Instr) : runs s = some i → exec i s.atExec = .next t → BeforeTick s t
  | unrecognised (e : Unrecognised) : s.wait = none → decode (State.fetchWord s) = .error e → runs s = none →
      BeforeTick s (State.emitDiag s.atExec .unrecognizedOpcode (State.fetchWord s))

/-- Every step is one of the three kinds, and ends with the tick. -/
theorem step_eq_endStep (s : State) : ∃ t, BeforeTick s t ∧ step s = .next (State.endStep t) := by
  rcases step_cases s with ⟨r, hw, hs⟩ | ⟨i, hw, hd, -⟩ | ⟨e, hw, hd, hs⟩
  · exact ⟨_, .wait r hw (runs_of_wait hw), hs⟩
  · have hr := runs_of_instr hw hd
    obtain ⟨t, ht, hs⟩ := step_of_runs hr
    exact ⟨t, .instr i hr ht, hs⟩
  · exact ⟨_, .unrecognised e hw hd (runs_of_unrecognised hw hd), hs⟩

/-- Settles O6: the step of an instruction, with the states of its phases written out. -/
theorem stepRunsTheDecodedInstruction : Obligations.StepRunsTheDecodedInstruction := by
  unfold Obligations.StepRunsTheDecodedInstruction
  intro s i hw hd
  exact step_of_instr hw hd

/-- Settles O7: the two bytes of the fetched word, each read through the port. -/
theorem fetchIsBigEndianModulo4096 : Obligations.FetchIsBigEndianModulo4096 := by
  unfold Obligations.FetchIsBigEndianModulo4096
  intro s
  rw [read_mod, read_mod]
  exact toNat_wordOfBytes _ _

/-! ### Every step completes and ticks -/

/-- Settles O9: no kind of step touches the keys or the count of steps before its end, which counts one. -/
theorem everyStepCompletes : Obligations.EveryStepCompletes := by
  unfold Obligations.EveryStepCompletes
  intro s
  obtain ⟨t, ht, hs⟩ := step_eq_endStep s
  have kept : t.stepNo = s.stepNo ∧ t.key = s.key := by
    cases ht with
    | wait r => simp
    | instr i _ hexec => exact ⟨(exec_frame hexec).stepNo, (exec_frame hexec).key⟩
    | unrecognised e => exact ⟨rfl, rfl⟩
  refine ⟨State.endStep t, hs, ?_, kept.2⟩
  rw [endStep_stepNo, kept.1]

theorem dtAtTick_of_ne {s : State} (h : ∀ x, runs s ≠ some (.ldDtVx x)) : dtAtTick s = s.dt := by
  unfold dtAtTick
  split
  · next x hr => exact absurd hr (h x)
  · rfl

theorem stAtTick_of_ne {s : State} (h : ∀ x, runs s ≠ some (.ldStVx x)) : stAtTick s = s.st := by
  unfold stAtTick
  split
  · next x hr => exact absurd hr (h x)
  · rfl

theorem BeforeTick.exec_of_runs {s t : State} {i : Instr} (h : BeforeTick s t) (hr : runs s = some i) :
    exec i s.atExec = .next t := by
  cases h with
  | wait r _ hn => rw [hn] at hr; cases hr
  | unrecognised e _ _ hn => rw [hn] at hr; cases hr
  | instr j hj hexec => cases hj.symm.trans hr; exact hexec

theorem BeforeTick.dt {s t : State} (h : BeforeTick s t) : t.dt = dtAtTick s := by
  by_cases hx : ∃ x, runs s = some (.ldDtVx x)
  · obtain ⟨x, hr⟩ := hx
    cases h.exec_of_runs hr
    simp only [dtAtTick, hr]
    rfl
  · push Not at hx
    rw [dtAtTick_of_ne hx]
    cases h with
    | wait r => simp
    | unrecognised e => rfl
    | instr i hi hexec => exact (exec_frame hexec).dt fun x e => hx x (e ▸ hi)

theorem BeforeTick.st {s t : State} (h : BeforeTick s t) : t.st = stAtTick s := by
  by_cases hx : ∃ x, runs s = some (.ldStVx x)
  · obtain ⟨x, hr⟩ := hx
    cases h.exec_of_runs hr
    simp only [stAtTick, hr]
    rfl
  · push Not at hx
    rw [stAtTick_of_ne hx]
    cases h with
    | wait r => simp
    | unrecognised e => rfl
    | instr i hi hexec => exact (exec_frame hexec).st fun x e => hx x (e ▸ hi)

/-- Settles O10: the end of the step counts from what the execute phase left. -/
theorem timersCountAtTheEndOfEveryStep : Obligations.TimersCountAtTheEndOfEveryStep := by
  unfold Obligations.TimersCountAtTheEndOfEveryStep
  intro s
  obtain ⟨t, ht, hs⟩ := step_eq_endStep s
  rw [← ht.dt, ← ht.st]
  exact ⟨State.endStep t, hs, toNat_countDown t.dt, toNat_countDown t.st, beq_one_iff t.st⟩

/-- Settles O12: phase 0 clears `RP`, and of the instructions only CLS and DRW write it, with 1. -/
theorem redrawIsPendingExactlyAfterClsOrDrw : Obligations.RedrawIsPendingExactlyAfterClsOrDrw := by
  unfold Obligations.RedrawIsPendingExactlyAfterClsOrDrw
  intro s
  obtain ⟨t, ht, hs⟩ := step_eq_endStep s
  refine ⟨State.endStep t, hs, ?_⟩
  rw [endStep_rp]
  cases ht with
  | wait r _ hn => simp [hn]
  | unrecognised e _ _ hn => simp [hn, State.atExec]
  | instr i hi hexec =>
    rw [hi]
    by_cases hc : (∃ ign, i = .cls ign) ∨ ∃ x y n, i = .drwVxVyN x y n
    · have rp : t.rp = true := by
        obtain ⟨ign, rfl⟩ | ⟨x, y, n, rfl⟩ := hc
        · cases hexec; rfl
        · cases hexec; rfl
      simpa [rp] using hc
    · have rp : t.rp = false := by
        push Not at hc
        exact ((exec_frame hexec).screen hc.1 hc.2).2
      simpa [rp] using hc

end Sys2Proof.Machine
end

section
/-! PROOFS. A step on an unrecognised word (spec/40_step_cycle.md R94), and where every step leaves `pc`
(spec/10_state.md R30, R31). -/

namespace Sys2Proof.Machine

open Sys2Proof.Safety

/-! ### The components of a step written with numbers -/

theorem add_two_eq_ofNat (w : Word) : w + 2 = BitVec.ofNat 16 (w.toNat + 2) := by
  apply BitVec.eq_of_toNat_eq
  rw [BitVec.toNat_ofNat]
  exact BitVec.toNat_add w 2

theorem countDown_eq_ofNat (t : Byte) : countDown t = BitVec.ofNat 8 (t.toNat - 1) := by
  rw [← toNat_countDown, BitVec.ofNat_toNat, BitVec.setWidth_eq]

theorem beq_one_eq_decide (t : Byte) : (t == 1) = decide (t.toNat = 1) :=
  Bool.eq_iff_iff.mpr ((beq_one_iff t).trans decide_eq_true_iff.symm)

/-- Settles O8: the phases of a step on an unrecognised word, written as one update. -/
theorem unrecognisedWordIsALoggedNoOp : Obligations.UnrecognisedWordIsALoggedNoOp := by
  unfold Obligations.UnrecognisedWordIsALoggedNoOp
  intro s e hw hd
  have addr : (State.advancePc (State.beginStep s)).pc - 2 = s.pc := word_add_two_sub_two s.pc
  rw [step_of_unrecognised hw hd, State.emitDiag, addr, ← add_two_eq_ofNat, ← countDown_eq_ofNat, ← countDown_eq_ofNat,
    ← beq_one_eq_decide]
  rfl

/-! ### Where a step leaves `pc` -/

/-- The two outcomes of a skip in a step, whose condition says `P`, counted from the address of the instruction. -/
theorem skipIf_atExec_pc {s : State} {c : Bool} {P : Prop} [Decidable P] (h : c = true ↔ P) :
    (State.skipIf s.atExec c).pc = if P then s.pc + 4 else s.pc + 2 := by
  have four : s.pc + 2 + 2 = s.pc + 4 := BitVec.add_assoc s.pc 2 2
  rw [skipIf_pc, if_congr h rfl rfl]
  exact if_congr Iff.rfl four rfl

theorem zextAddr_eq_ofNat (nnn : Addr) : zextAddr nnn = BitVec.ofNat 16 nnn.toNat :=
  (BitVec.ofNat_toNat 16 nnn).symm

theorem zextByte_eq_ofNat (b : Byte) : zextByte b = BitVec.ofNat 16 b.toNat :=
  (BitVec.ofNat_toNat 16 b).symm

/-- What the execute phase of a step leaves in `pc`. -/
theorem exec_atExec_pc {i : Instr} {s t : State} (hr : runs s = some i) (h : exec i s.atExec = .next t) :
    t.pc = pcAfter s := by
  unfold pcAfter
  rw [hr]
  cases i
  case jp nnn =>
    cases h
    exact zextAddr_eq_ofNat nnn
  case jpV0Nnn nnn =>
    cases h
    dsimp only
    rw [BitVec.ofNat_add, ← zextAddr_eq_ofNat, ← zextByte_eq_ofNat]
    rfl
  case call nnn =>
    dsimp only
    by_cases hs : s.sp.val < 16
    · rw [exec_call_of_lt nnn (s := s.atExec) hs] at h
      cases h
      rw [if_pos hs, ← zextAddr_eq_ofNat]
    · rw [exec_call_of_full nnn (s := s.atExec) hs] at h
      cases h
      rw [if_neg hs]
      rfl
  case ret ign =>
    dsimp only
    by_cases hs : 0 < s.sp.val
    · rw [exec_ret_of_pos ign (s := s.atExec) hs] at h
      cases h
      rw [dif_pos hs]
      rfl
    · rw [exec_ret_of_empty ign (s := s.atExec) hs] at h
      cases h
      rw [dif_neg hs]
      rfl
  case seVxKk | seVxVy => cases h; exact skipIf_atExec_pc beq_iff_eq
  case sneVxKk | sneVxVy => cases h; exact skipIf_atExec_pc bne_iff_ne
  case skpVx x => cases h; exact skipIf_atExec_pc (keyPressed_iff s x)
  case sknpVx x => cases h; exact skipIf_atExec_pc (not_keyPressed_iff s x)
  case ldVxMem => cases h; exact setRegs_pc ..
  -- every other row leaves the advanced `pc`
  all_goals
    cases h
    rfl

/-- Settles O11: the table, row by row of the execute phase; an unrecognised word leaves the advanced `pc`. -/
theorem pcAfterEveryStepFollowsTheTable : Obligations.PcAfterEveryStepFollowsTheTable := by
  unfold Obligations.PcAfterEveryStepFollowsTheTable
  intro s hw
  obtain ⟨t, ht, hs⟩ := step_eq_endStep s
  refine ⟨State.endStep t, hs, ?_⟩
  rw [endStep_pc]
  cases ht with
  | wait r hr => rw [hw] at hr; cases hr
  | instr i hi hexec => exact exec_atExec_pc hi hexec
  | unrecognised e _ _ hn => simp only [pcAfter, hn]; rfl

/-- Settles O14: every other line of the table adds 2 or 4. -/
theorem otherStepsKeepAnEvenPc : Obligations.OtherStepsKeepAnEvenPc := by
  unfold Obligations.OtherStepsKeepAnEvenPc
  intro s heven hw hjp hjpV0 hcall hret
  obtain ⟨t, hs, hpc⟩ := pcAfterEveryStepFollowsTheTable s hw
  refine ⟨t, hs, ?_⟩
  have two : (s.pc + 2).toNat % 2 = 0 := by
    have sum : (s.pc + 2).toNat = (s.pc.toNat + 2) % 65536 := BitVec.toNat_add s.pc 2
    omega
  have four : (s.pc + 4).toNat % 2 = 0 := by
    have sum : (s.pc + 4).toNat = (s.pc.toNat + 4) % 65536 := BitVec.toNat_add s.pc 4
    omega
  rw [hpc]
  unfold pcAfter
  split
  next nnn hr => exact absurd hr (hjp nnn)
  next nnn hr => exact absurd hr (hjpV0 nnn)
  next nnn hr => exact absurd hr (hcall nnn)
  next ign hr => exact absurd hr (hret ign)
  -- the skips
  iterate 6
    split
    · exact four
    · exact two
  exact two

end Sys2Proof.Machine
end

section
/-! PROOFS. The diagnostic of every step (spec/60_exceptions.md R170), the finished states
(spec/70_reset_and_hazards.md R209), and the steps of the timer instructions and of a key-wait
(spec/44_timer_memory_bcd.md R151 to R154). -/

namespace Sys2Proof.Machine

open Sys2Proof.Safety

/-! ### The diagnostic of a step -/

/-- Why the next step emits a diagnostic of a kind (R170). -/
inductive DiagCause (s : State) : DiagKind → Prop
  | unrecognised (e : Unrecognised) : s.wait = none → decode (State.fetchWord s) = .error e →
      DiagCause s .unrecognizedOpcode
  | unimplemented (x : Nibble) : runs s = some (.ldVxK x) → DiagCause s .unimplementedOpcode
  | overflow (nnn : Addr) : runs s = some (.call nnn) → s.sp.val = 16 → DiagCause s .stackOverflow
  | underflow (ign : Nibble) : runs s = some (.ret ign) → s.sp.val = 0 → DiagCause s .stackUnderflow

/-- A diagnostic emitted in the execute phase of a step names the address that was fetched from. -/
theorem emitDiag_atExec_diag (s : State) (k : DiagKind) (w : Word) :
    (State.emitDiag s.atExec k w).diag = some { kind := k, word := w, addr := s.pc } := by
  have addr : s.atExec.pc - 2 = s.pc := word_add_two_sub_two s.pc
  rw [emitDiag_diag, addr]

/-- The execute phase of a step with a cause for a diagnostic emits it, with the word fetched, and does nothing else;
without one there is no diagnostic. -/
theorem exec_atExec_diag_cases {i : Instr} {s t : State} (hr : runs s = some i) (h : exec i s.atExec = .next t) :
    (∃ k, DiagCause s k ∧ t = State.emitDiag s.atExec k (State.fetchWord s)) ∨
      ((∀ k, ¬ DiagCause s k) ∧ t.diag = none) := by
  obtain ⟨-, hd⟩ := runs_eq_some_iff.mp hr
  have sp_lt := s.sp.isLt
  rw [← encode_of_decode hd]
  -- an instruction has no causes but its own
  have none_of (hcall : ∀ nnn, i = .call nnn → s.sp.val ≠ 16) (hret : ∀ ign, i = .ret ign → s.sp.val ≠ 0)
      (hkey : ∀ x, i ≠ .ldVxK x) : ∀ k, ¬ DiagCause s k := by
    rintro k (⟨e, -, he⟩ | ⟨x, hx⟩ | ⟨nnn, hn, hs⟩ | ⟨ign, hi, hs⟩)
    · rw [hd] at he; cases he
    · exact hkey x (Option.some.inj (hr.symm.trans hx))
    · exact hcall nnn (Option.some.inj (hr.symm.trans hn)) hs
    · exact hret ign (Option.some.inj (hr.symm.trans hi)) hs
  cases i
  case call nnn =>
    by_cases hs : s.sp.val < 16
    · rw [exec_call_of_lt nnn (s := s.atExec) hs] at h
      cases h
      exact .inr ⟨none_of (fun _ _ => by omega) nofun nofun, rfl⟩
    · rw [exec_call_of_full nnn (s := s.atExec) hs] at h
      cases h
      exact .inl ⟨_, .overflow nnn hr (by omega), rfl⟩
  case ret ign =>
    by_cases hs : 0 < s.sp.val
    · rw [exec_ret_of_pos ign (s := s.atExec) hs] at h
      cases h
      exact .inr ⟨none_of nofun (fun _ _ => by omega) nofun, rfl⟩
    · rw [exec_ret_of_empty ign (s := s.atExec) hs] at h
      cases h
      exact .inl ⟨_, .underflow ign hr (by omega), rfl⟩
  case ldVxK x =>
    cases h
    exact .inl ⟨_, .unimplemented x hr, rfl⟩
  all_goals exact .inr ⟨none_of nofun nofun nofun, (exec_frame h).diag nofun nofun nofun⟩

/-- The same for the end of any step. -/
theorem BeforeTick.diag_cases {s t : State} (h : BeforeTick s t) :
    (∃ k, DiagCause s k ∧ t = State.emitDiag s.atExec k (State.fetchWord s)) ∨
      ((∀ k, ¬ DiagCause s k) ∧ t.diag = none) := by
  cases h with
  | wait r hw hn =>
    refine .inr ⟨?_, pollKeys_diag _ r⟩
    rintro k (⟨e, hw', -⟩ | ⟨x, hx⟩ | ⟨nnn, hx, -⟩ | ⟨ign, hx, -⟩)
    · rw [hw] at hw'; cases hw'
    all_goals rw [hn] at hx; cases hx
  | instr i hi hexec => exact exec_atExec_diag_cases hi hexec
  | unrecognised e hw hd => exact .inl ⟨_, .unrecognised e hw hd, rfl⟩

theorem diagAfter_of_cause {s : State} {k : DiagKind} (h : DiagCause s k) :
    diagAfter s = some { kind := k, word := State.fetchWord s, addr := s.pc } := by
  unfold diagAfter
  cases h with
  | unrecognised e _ hd => rw [hd]
  | unimplemented x hr => rw [(runs_eq_some_iff.mp hr).2]
  | overflow nnn hr hs =>
    rw [(runs_eq_some_iff.mp hr).2]
    exact if_pos hs
  | underflow ign hr hs =>
    rw [(runs_eq_some_iff.mp hr).2]
    exact if_pos hs

theorem diagAfter_of_no_cause {s : State} (hw : s.wait = none) (h : ∀ k, ¬ DiagCause s k) : diagAfter s = none := by
  unfold diagAfter
  split
  next e hd => exact absurd (.unrecognised e hw hd) (h _)
  next x hd => exact absurd (.unimplemented x (runs_of_instr hw hd)) (h _)
  next nnn hd => exact if_neg fun hs => h _ (.overflow nnn (runs_of_instr hw hd) hs)
  next ign hd => exact if_neg fun hs => h _ (.underflow ign (runs_of_instr hw hd) hs)
  next => rfl

/-- Settles O13: the step emits the diagnostic of its cause, and none without one. -/
theorem diagnosticOfEveryStep : Obligations.DiagnosticOfEveryStep := by
  unfold Obligations.DiagnosticOfEveryStep
  intro s hw
  obtain ⟨t, ht, hs⟩ := step_eq_endStep s
  refine ⟨State.endStep t, hs, ?_⟩
  rw [endStep_diag]
  obtain ⟨k, cause, rfl⟩ | ⟨no_cause, diag⟩ := ht.diag_cases
  · rw [emitDiag_atExec_diag, diagAfter_of_cause cause]
  · rw [diag, diagAfter_of_no_cause hw no_cause]

/-! ### A finished state -/

/-- The jump to itself is the jump to `pc`. -/
theorem decode_of_finished {s : State} (h : Finished s) :
    decode (State.fetchWord s) = .ok (.jp (s.pc.setWidth 12)) := by
  obtain ⟨-, hle, hw⟩ := h
  rw [hw, decode_eq_ok_iff]
  apply BitVec.eq_of_toNat_eq
  rw [encode, toNat_packNnn, BitVec.toNat_setWidth, BitVec.toNat_add]
  change 0x1 * 4096 + s.pc.toNat % 4096 = (0x1000 + s.pc.toNat) % 65536
  omega

theorem zextAddr_setWidth {w : Word} (h : w.toNat ≤ 0xFFF) : zextAddr (w.setWidth 12) = w := by
  apply BitVec.eq_of_toNat_eq
  rw [zextAddr, BitVec.toNat_setWidth, BitVec.toNat_setWidth]
  omega

/-- Settles O15: the step is a jump to `pc`, so memory and `pc`, on which being finished depends, stay. -/
theorem finishedStateStaysPut : Obligations.FinishedStateStaysPut := by
  unfold Obligations.FinishedStateStaysPut
  intro s hw hfin
  obtain ⟨-, hle, -⟩ := id hfin
  have jump : exec (.jp (s.pc.setWidth 12)) s.atExec = .next { s.atExec with pc := s.pc } :=
    by rw [exec_jp, zextAddr_setWidth hle]
  have run : step s = .next (State.endStep { s.atExec with pc := s.pc }) :=
    (step_of_instr hw (decode_of_finished hfin)).trans (congrArg endStepAfter jump)
  exact ⟨_, run, hfin, rfl, rfl, toNat_countDown s.dt, toNat_countDown s.st, rfl⟩

/-! ### The timer instructions -/

theorem exec_ldVxDt (x : Nibble) (s : State) : exec (.ldVxDt x) s = .next (State.setReg s x s.dt) := rfl

/-- Settles O49: one register write at execute, and the tick after it. -/
theorem ldVxDtReadsBeforeTheTick : Obligations.LdVxDtReadsBeforeTheTick := by
  unfold Obligations.LdVxDtReadsBeforeTheTick
  refine ⟨fun x s => exec_of_setReg (exec_ldVxDt x s), fun x s hr => ?_, ?_⟩
  · obtain ⟨t, ht, hs⟩ := step_of_runs hr
    rw [exec_ldVxDt] at ht
    cases ht
    exact ⟨_, hs, reg_setReg_self s.atExec x s.dt, toNat_countDown s.dt⟩
  · -- R151's example word
    decide

/-- Settles O50: one timer write at execute, and the tick counts from it. -/
theorem timersAreLoadedFromARegister : Obligations.TimersAreLoadedFromARegister := by
  unfold Obligations.TimersAreLoadedFromARegister
  intro x s
  refine ⟨?_, ?_, fun hr => ?_, fun hr => ?_⟩
  · exact ⟨{ s with dt := State.reg s x }, rfl, rfl, fun _ _ => rfl, fun _ => rfl, rfl⟩
  · exact ⟨{ s with st := State.reg s x }, rfl, rfl, fun _ _ => rfl, fun _ => rfl, rfl⟩
  · obtain ⟨t, ht, hs⟩ := step_of_runs hr
    cases ht
    exact ⟨_, hs, toNat_countDown (State.reg s x)⟩
  · obtain ⟨t, ht, hs⟩ := step_of_runs hr
    cases ht
    exact ⟨_, hs, toNat_countDown (State.reg s x), beq_iff_eq⟩

/-! ### The key-wait -/

theorem lowestKey_eq_none {key : BitVec 16} (h : ∀ k < 16, key.getLsbD k = false) : lowestKey key = none := by
  have unpressed : (List.range 16).find? (fun k => key.getLsbD k) = none := by
    rw [List.find?_eq_none]
    intro k hk
    rw [h k (List.mem_range.mp hk)]
    exact Bool.false_ne_true
  rw [lowestKey, unpressed, Option.map_none]

theorem lowestKey_eq_some {key : BitVec 16} {k : Nat} (hk : k < 16) (hkey : key.getLsbD k = true)
    (hmin : ∀ j < k, key.getLsbD j = false) : lowestKey key = some (BitVec.ofNat 4 k) := by
  have least : (List.range 16).find? (fun k => key.getLsbD k) = some k := by
    rw [List.find?_range_eq_some]
    exact ⟨hkey, List.mem_range.mpr hk, fun j hj => by rw [hmin j hj]; rfl⟩
  rw [lowestKey, least, Option.map_some]

theorem pollKeys_of_none {s : State} (r : Nibble) (h : lowestKey s.key = none) : State.pollKeys s r = s := by
  simp only [State.pollKeys, h]

theorem pollKeys_of_some {s : State} (r : Nibble) {k : Nibble} (h : lowestKey s.key = some k) :
    State.pollKeys s r = { State.setReg s r (k.setWidth 8) with wait := none } := by
  simp only [State.pollKeys, h]

/-- Settles O52: the poll of a key-wait under way finds no key, or the least one. -/
theorem keyWaitInTheWaitMode : Obligations.KeyWaitInTheWaitMode := by
  unfold Obligations.KeyWaitInTheWaitMode
  intro r s
  refine ⟨⟨_, rfl, rfl⟩, fun hw hnone => ?_, fun k hk hw hkey hmin => ?_⟩
  · have poll := pollKeys_of_none (s := State.beginStep s) r (lowestKey_eq_none hnone)
    refine ⟨_, step_of_wait hw, ?_⟩
    rw [poll]
    exact ⟨toNat_countDown s.dt, toNat_countDown s.st, rfl, rfl, rfl⟩
  · have poll := pollKeys_of_some (s := State.beginStep s) r (lowestKey_eq_some hk hkey hmin)
    refine ⟨_, step_of_wait hw, ?_⟩
    rw [poll]
    have number : ((BitVec.ofNat 4 k).setWidth 8).toNat = k := by
      rw [BitVec.toNat_setWidth, BitVec.toNat_ofNat]
      omega
    have awaited : (State.reg (State.setReg (State.beginStep s) r ((BitVec.ofNat 4 k).setWidth 8)) r).toNat = k := by
      rw [reg_setReg_self, number]
    have others := (onlyRegs_setReg (State.beginStep s) r ((BitVec.ofNat 4 k).setWidth 8)).1
    exact ⟨awaited, rfl, rfl, toNat_countDown s.dt, toNat_countDown s.st, rfl, rfl, others, fun _ => rfl, rfl⟩

/-- A step that does not run the key-wait is the same in both modes. -/
theorem stepIn_of_runs_ne (mode : KeyWaitMode) {s : State} (h : ∀ x, runs s ≠ some (.ldVxK x)) :
    stepIn mode s = step s :=
  stepIn_of_ne mode fun x hw hd => h x (runs_of_instr hw hd)

/-- Settles O59: the mode is read by the execute phase of `Fx0A` alone. -/
theorem keyWaitModeIsAnArgumentOfTheStep : Obligations.KeyWaitModeIsAnArgumentOfTheStep := by
  unfold Obligations.KeyWaitModeIsAnArgumentOfTheStep
  refine ⟨stepIn_default, fun mode s h => stepIn_of_runs_ne mode h, fun x s hr => ?_⟩
  obtain ⟨hw, hd⟩ := runs_eq_some_iff.mp hr
  rw [stepIn_of_keyWait .wait hw hd, ← add_two_eq_ofNat, ← countDown_eq_ofNat, ← countDown_eq_ofNat,
    ← beq_one_eq_decide]
  rfl

end Sys2Proof.Machine
end

section
/-! PROOFS. The instructions that use memory and the index register (spec/44_timer_memory_bcd.md R150, R155, R157
to R159, spec/20_memory.md R64), and the host's load (spec/70_reset_and_hazards.md R202): a store is one run of
bytes, which reads back byte by byte and leaves everything else. -/

namespace Sys2Proof.Machine

open Sys2Proof.Safety

/-! ### Writes of the index register, and the key-wait's diagnostic -/

theorem exec_ldINnn (nnn : Addr) (s : State) : exec (.ldINnn nnn) s = .next { s with index := zextAddr nnn } := rfl

theorem exec_addIVx (x : Nibble) (s : State) :
    exec (.addIVx x) s = .next { s with index := s.index + zextByte (State.reg s x) } := rfl

theorem exec_ldVxK (x : Nibble) (s : State) :
    exec (.ldVxK x) s = .next (State.emitDiag s .unimplementedOpcode (encode (.ldVxK x))) := rfl

/-- Settles O46: one write of the zero-extended address. -/
theorem ldILoadsTheAddress : Obligations.LdILoadsTheAddress := by
  unfold Obligations.LdILoadsTheAddress
  constructor
  · intro nnn s
    obtain ⟨t, ht, hindex, frame⟩ := exec_of_setIndex (exec_ldINnn nnn s)
    exact ⟨t, ht, by rw [hindex, toNat_zextAddr], frame⟩
  · -- R150's example word
    decide

/-- Settles O47: one write of the 16-bit sum. -/
theorem addIVxWrapsAt65536 : Obligations.AddIVxWrapsAt65536 := by
  unfold Obligations.AddIVxWrapsAt65536
  intro x s
  obtain ⟨t, ht, hindex, frame⟩ := exec_of_setIndex (exec_addIVx x s)
  exact ⟨t, ht, by rw [hindex, BitVec.toNat_add, toNat_zextByte], frame⟩

/-- Settles O51: the execute phase only emits the diagnostic, with the instruction's word. -/
theorem keyWaitIsAnUnimplementedNoOp : Obligations.KeyWaitIsAnUnimplementedNoOp := by
  unfold Obligations.KeyWaitIsAnUnimplementedNoOp
  intro x s
  have word : (encode (.ldVxK x)).toNat = 0xF00A + 256 * x.toNat := by
    rw [encode, toNat_packXkk]
    change 0xF * 4096 + x.toNat * 256 + 0x0A = _
    omega
  rw [← word]
  exact exec_of_emitDiag (exec_ldVxK x s)

/-! ### A run of bytes stored -/

/-- A run of bytes written to memory leaves every byte outside the run, and all the rest. -/
theorem onlyMem_writeBytes (s : State) (addr : Nat) (bs : List Byte) :
    OnlyMem addr bs.length s { s with mem := Memory.writeBytes s.mem addr bs } :=
  ⟨fun a h => read_writeBytes_other s.mem addr a bs h, rfl⟩

/-- An execute phase that stores a run of bytes at `I`: each byte reads back, and only the run changes. -/
theorem exec_of_writeBytes {i : Instr} {s : State} {bs : List Byte} (hl : bs.length ≤ 4096)
    (h : exec i s = .next { s with mem := Memory.writeBytes s.mem (State.dataAddr s) bs }) :
    ∃ t, exec i s = .next t ∧ (∀ k (hk : k < bs.length), Memory.read t.mem (s.index.toNat + k) = bs[k]) ∧
      RegsKept [] s t ∧ OnlyMem s.index.toNat bs.length s t :=
  ⟨_, h, read_writeBytes_at s.mem s.index.toNat bs hl, fun r _ => reg_congr rfl r,
    onlyMem_writeBytes s s.index.toNat bs⟩

theorem exec_ldBVx (x : Nibble) (s : State) : exec (.ldBVx x) s
    = .next { s with mem := Memory.writeBytes s.mem (State.dataAddr s) (bcdDigits (State.reg s x)) } := rfl

theorem exec_ldMemVx (x : Nibble) (s : State) : exec (.ldMemVx x) s
    = .next { s with mem := Memory.writeBytes s.mem (State.dataAddr s) (State.regsUpTo s x) } := rfl

theorem exec_ldVxMem (x : Nibble) (s : State) : exec (.ldVxMem x) s
    = .next (State.setRegs s 0 (Memory.readBytes s.mem (State.dataAddr s) (x.toNat + 1))) := rfl

theorem toNat_digit {n : Nat} (h : n < 256) : (BitVec.ofNat 8 n).toNat = n :=
  BitVec.toNat_ofNat n 8 ▸ Nat.mod_eq_of_lt h

/-- Settles O53: the three digits are one run of bytes at `I`. -/
theorem ldBStoresTheDecimalDigits : Obligations.LdBStoresTheDecimalDigits := by
  unfold Obligations.LdBStoresTheDecimalDigits
  intro x s
  have lt := (State.reg s x).isLt
  have len : (bcdDigits (State.reg s x)).length = 3 := rfl
  obtain ⟨t, ht, byte, regs, only⟩ := exec_of_writeBytes (by omega) (exec_ldBVx x s)
  refine ⟨t, ht, ?_, ?_, ?_, regs, only⟩
  · exact (congrArg BitVec.toNat (byte 0 (by omega))).trans (toNat_digit (by omega))
  · exact (congrArg BitVec.toNat (byte 1 (by omega))).trans (toNat_digit (by omega))
  · exact (congrArg BitVec.toNat (byte 2 (by omega))).trans (toNat_digit (by omega))

/-! ### The block transfers -/

@[simp] theorem length_regsUpTo (s : State) (x : Nibble) : (State.regsUpTo s x).length = x.toNat + 1 := by
  simp [State.regsUpTo]

theorem getElem_regsUpTo (s : State) (x : Nibble) (k : Nat) (h : k < (State.regsUpTo s x).length) :
    (State.regsUpTo s x)[k] = State.reg s (BitVec.ofNat 4 k) := by
  simp [State.regsUpTo]

/-- A block store: every register up to `x` reads back from its place. -/
theorem exec_ldMemVx_spec (x : Nibble) (s : State) : ∃ t, exec (.ldMemVx x) s = .next t ∧
    (∀ k : Nibble, k.toNat ≤ x.toNat → Memory.read t.mem (s.index.toNat + k.toNat) = State.reg s k) ∧
    RegsKept [] s t ∧ OnlyMem s.index.toNat (x.toNat + 1) s t := by
  have lt := x.isLt
  have len : (State.regsUpTo s x).length ≤ 4096 := by rw [length_regsUpTo]; omega
  obtain ⟨t, ht, byte, regs, only⟩ := exec_of_writeBytes len (exec_ldMemVx x s)
  rw [length_regsUpTo] at only
  refine ⟨t, ht, fun k hk => ?_, regs, only⟩
  rw [byte k.toNat (by rw [length_regsUpTo]; omega), getElem_regsUpTo, BitVec.ofNat_toNat, BitVec.setWidth_eq]

/-- Settles O54: the registers are one run of bytes at `I`. -/
theorem blockStoreCopiesRegistersToMemory : Obligations.BlockStoreCopiesRegistersToMemory := by
  unfold Obligations.BlockStoreCopiesRegistersToMemory
  exact exec_ldMemVx_spec

/-- Settles O55: what a register reads after `setRegs` is the byte of its place, and above the list its old value. -/
theorem blockLoadCopiesMemoryToRegisters : Obligations.BlockLoadCopiesMemoryToRegisters := by
  unfold Obligations.BlockLoadCopiesMemoryToRegisters
  intro x s
  have lt := x.isLt
  have reg (k : Nibble) : State.reg (State.setRegs s 0 (Memory.readBytes s.mem (State.dataAddr s) (x.toNat + 1))) k
      = if k.toNat < x.toNat + 1 then Memory.read s.mem (s.index.toNat + k.toNat) else State.reg s k := by
    rw [reg_setRegs _ _ _ (by rw [length_readBytes]; omega), if_pos (Nat.zero_le _), Nat.sub_zero, getD_readBytes]
    rfl
  refine ⟨_, exec_ldVxMem x s, fun k hk => ?_, fun k hk => ?_, fun a => ?_, setRegs_frame ..⟩
  · rw [reg, if_pos (by omega)]
  · rw [reg, if_neg (by omega)]
  · rw [setRegs_mem]

/-- Writing back consecutive registers changes nothing. -/
theorem setRegs_map_reg (s : State) (k n : Nat) :
    State.setRegs s k ((List.range' k n).map (fun j => State.reg s (BitVec.ofNat 4 j))) = s := by
  induction n generalizing k with
  | zero => rfl
  | succ n ih => rw [List.range'_succ, List.map_cons, State.setRegs, setReg_reg, ih]

theorem setRegs_regsUpTo (s : State) (x : Nibble) : State.setRegs s 0 (State.regsUpTo s x) = s := by
  rw [State.regsUpTo, List.range_eq_range']
  exact setRegs_map_reg s 0 (x.toNat + 1)

/-- Settles O56: the load reads back the registers that the store wrote. -/
theorem blockLoadAfterBlockStoreIsTheStore : Obligations.BlockLoadAfterBlockStoreIsTheStore := by
  unfold Obligations.BlockLoadAfterBlockStoreIsTheStore
  intro x s
  obtain ⟨t, ht, byte, regs, only⟩ := exec_ldMemVx_spec x s
  have index : t.index = s.index := by rw [only.2]
  have loaded : Memory.readBytes t.mem (State.dataAddr t) (x.toNat + 1) = State.regsUpTo t x := by
    apply List.map_congr_left
    intro k hk
    have hk := List.mem_range.mp hk
    have lt := x.isLt
    have num : (BitVec.ofNat 4 k).toNat = k := by
      rw [BitVec.toNat_ofNat]
      omega
    have := byte (BitVec.ofNat 4 k) (by omega)
    rwa [num, ← index, ← regs _ List.not_mem_nil] at this
  refine ⟨t, ht, ?_⟩
  rw [exec_ldVxMem, loaded, setRegs_regsUpTo]

/-- Settles O57: the fetch reads the first two bytes of the store. -/
theorem storedCodeIsFetchedNext : Obligations.StoredCodeIsFetchedNext := by
  unfold Obligations.StoredCodeIsFetchedNext
  intro x s hx hpc
  obtain ⟨t, ht, byte, -, only⟩ := exec_ldMemVx_spec x s
  have pc : t.pc = s.index := by rw [only.2, hpc]
  have hi : Memory.read t.mem t.pc.toNat = State.reg s 0 := by
    rw [pc]
    exact byte 0 (Nat.zero_le _)
  have lo : Memory.read t.mem (t.pc.toNat + 1) = State.reg s 1 := by
    rw [pc]
    exact byte 1 hx
  exact ⟨t, ht, by rw [State.fetchWord, hi, lo, toNat_wordOfBytes]⟩

/-! ### The host's load -/

/-- Settles O24: an image that passes the check is one run of bytes at `0x200`. -/
theorem loadCopiesTheImageTo0x200 : Obligations.LoadCopiesTheImageTo0x200 := by
  unfold Obligations.LoadCopiesTheImageTo0x200
  intro image s
  constructor
  · intro h
    have loaded : State.load image s = .next { s with mem := Memory.writeBytes s.mem 0x200 image } :=
      if_pos (decide_eq_true h)
    exact ⟨_, loaded, read_writeBytes_at s.mem 0x200 image (by omega), onlyMem_writeBytes s 0x200 image⟩
  · intro h
    exact if_neg (ne_true_of_eq_false (decide_eq_false (Nat.not_le.mpr h)))

end Sys2Proof.Machine
end

section
/-! PROOFS. The framebuffer (spec/43_draw.md R140 to R143): the pixels that the sprite's set bits land on are those
where the closed formula has a bit, so the loops of DRW compute the formula. -/

namespace Sys2Proof.Machine

open Sys2Proof.Safety

/-! ### Clearing -/

/-- Settles O43: the whole framebuffer is written blank. -/
theorem clsUnlightsEveryPixel : Obligations.ClsUnlightsEveryPixel := by
  unfold Obligations.ClsUnlightsEveryPixel
  constructor
  · intro ign s
    exact ⟨_, rfl, fun p _ => fbPixel_blank p, rfl, fun _ _ => rfl, fun _ => rfl, rfl⟩
  · -- the word the source prints
    decide

/-! ### The sprite and the formula -/

/-- The pixels that the set bits of a state's sprite land on. -/
def State.spritePixels (s : State) (x y n : Nibble) : List Nat :=
  rowsPixels (State.reg s x).toNat (Memory.readBytes s.mem (State.dataAddr s) n.toNat) (State.reg s y).toNat

theorem nodup_spritePixels (s : State) (x y n : Nibble) : (s.spritePixels x y n).Nodup := by
  have := n.isLt
  exact nodup_rowsPixels _ _ _ (by rw [length_readBytes]; omega)

theorem spritePixels_lt {s : State} {x y n : Nibble} {p : Nat} (h : p ∈ s.spritePixels x y n) : p < 2048 := by
  obtain ⟨k, -, c, -, -, rfl⟩ := mem_rowsPixels.mp h
  exact pixelIndex_lt _ _

/-- A sprite row `k` and column `c` land on the pixel of a row and a column exactly when they are the differences that
the formula computes. -/
theorem eq_pixelIndex_iff {row col vx vy k c : Nat} (hrow : row < 32) (hcol : col < 64) (hk : k < 32) (hc : c < 64) :
    row * 64 + col = pixelIndex (vy + k) (vx + c) ↔
      k = (((row : Int) - (vy : Int)) % 32).toNat ∧ c = (((col : Int) - (vx : Int)) % 64).toNat := by
  unfold pixelIndex
  omega

/-- The sprite has a set bit on a pixel exactly where the formula says (R143). -/
theorem mem_spritePixels_iff {s : State} {x y n : Nibble} {row col : Nat} (hrow : row < 32) (hcol : col < 64) :
    row * 64 + col ∈ s.spritePixels x y n ↔ spriteBit s x y n row col = true := by
  have hn := n.isLt
  simp only [State.spritePixels, mem_rowsPixels, spriteBit, Bool.and_eq_true, decide_eq_true_eq, length_readBytes,
    getElem_readBytes]
  constructor
  · rintro ⟨k, hk, c, hc, hbit, hp⟩
    obtain ⟨rfl, rfl⟩ := (eq_pixelIndex_iff hrow hcol (by omega) (by omega)).mp hp
    exact ⟨⟨hk, hc⟩, hbit⟩
  · rintro ⟨⟨hk, hc⟩, hbit⟩
    exact ⟨_, hk, _, hc, hbit, (eq_pixelIndex_iff hrow hcol (by omega) (by omega)).mpr ⟨rfl, rfl⟩⟩

/-- Every pixel of the framebuffer is that of a row and a column. -/
theorem exists_row_col {p : Nat} (h : p < 2048) : ∃ row < 32, ∃ col < 64, row * 64 + col = p :=
  ⟨p / 64, by omega, p % 64, by omega, by omega⟩

/-! ### The draw -/

/-- The framebuffer and the collision of a draw. -/
def State.drawn (s : State) (x y n : Nibble) : Framebuffer × Bool :=
  (s.spritePixels x y n).foldl (fun acc p => togglePixel p acc) (s.fb, false)

theorem exec_drwVxVyN (x y n : Nibble) (s : State) : exec (.drwVxVyN x y n) s
    = .next { State.setFlag s (s.drawn x y n).2 with fb := (s.drawn x y n).1, rp := true } := by
  rw [State.drawn, State.spritePixels, ← drawRows_eq_toggles]
  rfl

theorem fbPixel_drawn {s : State} {x y n : Nibble} {row col : Nat} (hrow : row < 32) (hcol : col < 64) :
    fbPixel (s.drawn x y n).1 (row * 64 + col)
      = (State.pixel s (row * 64 + col) ^^ spriteBit s x y n row col) := by
  have flips := (toggles_spec (s.spritePixels x y n) (nodup_spritePixels s x y n) (fun _ => spritePixels_lt)
    (s.fb, false)).1 (row * 64 + col) (by omega)
  have bit : decide (row * 64 + col ∈ s.spritePixels x y n) = spriteBit s x y n row col := by
    rw [Bool.eq_iff_iff, decide_eq_true_iff, mem_spritePixels_iff hrow hcol]
  rw [bit] at flips
  exact flips

theorem collision_drawn_iff {s : State} {x y n : Nibble} : (s.drawn x y n).2 = true ↔
    ∃ row < 32, ∃ col < 64, spriteBit s x y n row col = true ∧ State.pixel s (row * 64 + col) = true := by
  have collides := (toggles_spec (s.spritePixels x y n) (nodup_spritePixels s x y n) (fun _ => spritePixels_lt)
    (s.fb, false)).2
  rw [State.drawn, collides, Bool.false_or, List.any_eq_true]
  constructor
  · rintro ⟨p, hp, hlit⟩
    obtain ⟨row, hrow, col, hcol, rfl⟩ := exists_row_col (spritePixels_lt hp)
    exact ⟨row, hrow, col, hcol, (mem_spritePixels_iff hrow hcol).mp hp, hlit⟩
  · rintro ⟨row, hrow, col, hcol, hbit, hlit⟩
    exact ⟨_, (mem_spritePixels_iff hrow hcol).mpr hbit, hlit⟩

/-- Settles O44: the pixels and the flag of the draw are those of the formula. -/
theorem drwIsTheXorCompositor : Obligations.DrwIsTheXorCompositor := by
  unfold Obligations.DrwIsTheXorCompositor
  intro x y n s
  have flag (f : Bool) : State.reg (State.setFlag s f) 0xF = flagByte f := reg_setFlag_self s f
  refine ⟨_, exec_drwVxVyN x y n s, fun row hrow col hcol => fbPixel_drawn hrow hcol, fun h => ?_, fun h => ?_, rfl,
    fun r hr => ?_, fun _ => rfl, rfl⟩
  · exact (flag _).trans (by rw [collision_drawn_iff.mpr h]; rfl)
  · exact (flag _).trans (by rw [Bool.eq_false_iff.mpr (collision_drawn_iff.not.mpr h)]; rfl)
  · exact reg_setFlag_ne s _ (List.mem_singleton.not.mp hr)

/-- The formula reads only memory, `I` and the two coordinates. -/
theorem spriteBit_congr {s t : State} {x y : Nibble} (hmem : t.mem = s.mem) (hindex : t.index = s.index)
    (hx : State.reg t x = State.reg s x) (hy : State.reg t y = State.reg s y) (n : Nibble) :
    spriteBit t x y n = spriteBit s x y n := by
  unfold spriteBit
  rw [hmem, hindex, hx, hy]

/-- Settles O45: the second draw lays the same bits, so each pixel is flipped twice or not at all, and is lit at the
second draw where it was unlit at the first. -/
theorem drawingTwiceRestoresTheScreen : Obligations.DrawingTwiceRestoresTheScreen := by
  unfold Obligations.DrawingTwiceRestoresTheScreen
  intro x y n s hx hy
  obtain ⟨t, ht, pixels, -, -, -, regs, -, frame⟩ := drwIsTheXorCompositor x y n s
  obtain ⟨u, hu, pixels', lit, unlit, -⟩ := drwIsTheXorCompositor x y n t
  have bits : spriteBit t x y n = spriteBit s x y n :=
    spriteBit_congr (by rw [frame]) (by rw [frame]) (regs x (List.mem_singleton.not.mpr hx))
      (regs y (List.mem_singleton.not.mpr hy)) n
  rw [bits] at pixels' lit unlit
  refine ⟨t, u, ht, hu, fb_ext fun p hp => ?_, ?_⟩
  · obtain ⟨row, hrow, col, hcol, rfl⟩ := exists_row_col hp
    have back := pixels' row hrow col hcol
    rw [pixels row hrow col hcol, Bool.xor_assoc, Bool.xor_self, Bool.xor_false] at back
    exact back
  · have flipped {row col : Nat} (hrow : row < 32) (hcol : col < 64) (hbit : spriteBit s x y n row col = true) :
        State.pixel t (row * 64 + col) = true ↔ State.pixel s (row * 64 + col) = false := by
      rw [pixels row hrow col hcol, hbit, Bool.xor_true, Bool.not_eq_true']
    constructor
    · intro hf
      by_contra hno
      have dark := unlit fun ⟨row, hrow, col, hcol, hbit, hlit⟩ =>
        hno ⟨row, hrow, col, hcol, hbit, (flipped hrow hcol hbit).mp hlit⟩
      rw [hf] at dark
      exact absurd dark (by decide)
    · rintro ⟨row, hrow, col, hcol, hbit, hdark⟩
      exact lit ⟨row, hrow, col, hcol, hbit, (flipped hrow hcol hbit).mpr hdark⟩

end Sys2Proof.Machine
end

section
/-! PROOFS. The state after reset (spec/10_state.md R39, spec/70_reset_and_hazards.md R200), the invariant, and that
what the host does and every step keep it (spec/10_state.md R38 to R40, spec/70_reset_and_hazards.md R205). -/

namespace Sys2Proof.Machine

open Sys2Proof.Safety

/-! ### Reset -/

/-- A state with canonical memory, no output and no key-wait meets the invariant in either mode. -/
theorem invIn_of_quiet {s : State} (mode : KeyWaitMode) (hmem : Memory.wf s.mem = true) (hbeep : s.beep = false)
    (hdiag : s.diag = none) (hwait : s.wait = none) : InvIn mode s := by
  refine ⟨hmem, ?_, ?_, fun _ => hdiag, ?_, ?_⟩
  · rw [hbeep]; nofun
  · intro d hd
    rw [hdiag] at hd; cases hd
  · rw [hwait]; nofun
  · rw [hdiag]; nofun

theorem invIn_resetWith (mode : KeyWaitMode) (font : Font) : InvIn mode (State.resetWith font) :=
  invIn_of_quiet mode (wf_resetWith font) rfl rfl rfl

/-- Settles O20: after reset there is no output and no key-wait, and memory lists nothing. -/
theorem resetMeetsTheInvariant : Obligations.ResetMeetsTheInvariant := by
  unfold Obligations.ResetMeetsTheInvariant
  have inv (mode : KeyWaitMode) : InvIn mode State.reset := invIn_of_quiet mode wf_reset rfl rfl rfl
  exact ⟨inv keyWaitMode, inv⟩

theorem read_reset {a : Nat} (ha : a < 4096) : Memory.read State.reset.mem a = resetByte a :=
  congrArg resetByte (Nat.mod_eq_of_lt ha)

/-- Settles O23: memory by the table of the default font, the rest by the fields of the reset state. -/
theorem resetStateIsTheSpecs : Obligations.ResetStateIsTheSpecs := by
  unfold Obligations.ResetStateIsTheSpecs
  refine ⟨fun a ha => ?_, fun a ha ha' => ?_, fun r => ?_, rfl, fun k => ?_, rfl, rfl, fun p _ => fbPixel_blank p, rfl,
    rfl, fun k _ => BitVec.getLsbD_zero, rfl, rfl, rfl, rfl⟩
  · rw [read_reset (by omega), resetByte_eq]
  · rw [read_reset ha']
    exact initialByte_of_le defaultFont ha
  · exact Vector.getElem_replicate r.isLt
  · exact Vector.getElem_replicate k.isLt

/-- Settles O58: memory by the bytes of the font, and the invariant as for any quiet state. -/
theorem resetTakesAnyFont : Obligations.ResetTakesAnyFont := by
  unfold Obligations.ResetTakesAnyFont
  refine ⟨fun font => ⟨fun a h => ?_, fun a h h' => ?_, rfl, fun mode => invIn_resetWith mode font⟩,
    resetWith_defaultFont⟩
  · rw [read_resetWith font (by omega), initialByte_of_lt font h]
  · rw [read_resetWith font h', initialByte_of_le font h]

/-! ### The parts of the invariant after a step -/

/-- The tick raises `beep` only when it takes `ST` from 1 to 0 (R182). -/
theorem endStep_st_of_beep {t : State} (h : (State.endStep t).beep = true) : (State.endStep t).st = 0 := by
  have one : t.st = 1 := by simpa using h
  rw [endStep_st, one]
  rfl

theorem exec_wf {i : Instr} {s t : State} (h : exec i s = .next t) (hs : Memory.wf s.mem = true) :
    Memory.wf t.mem = true := by
  by_cases hb : ∃ x, i = .ldBVx x
  · obtain ⟨x, rfl⟩ := hb
    cases h
    exact wf_writeBytes _ _ hs
  by_cases hm : ∃ x, i = .ldMemVx x
  · obtain ⟨x, rfl⟩ := hm
    cases h
    exact wf_writeBytes _ _ hs
  push Not at hb hm
  rw [(exec_frame h).mem hb hm]
  exact hs

theorem BeforeTick.wf {s t : State} (h : BeforeTick s t) (hs : Memory.wf s.mem = true) : Memory.wf t.mem = true := by
  cases h with
  | wait r => rw [pollKeys_mem]; exact hs
  | instr i _ hexec => exact exec_wf hexec hs
  | unrecognised e => exact hs

/-- A diagnostic emitted for a cause meets the invariant's clause on diagnostics after the tick. -/
theorem diagOk_of_cause {s : State} {k : DiagKind} (h : DiagCause s k) :
    DiagOk (State.endStep (State.emitDiag s.atExec k (State.fetchWord s))) := by
  intro d hd
  rw [endStep_diag, emitDiag_atExec_diag] at hd
  cases hd
  refine ⟨rfl, ?_⟩
  cases h with
  | unrecognised e _ he => exact ⟨e, he⟩
  | unimplemented x hr => exact ⟨x, (runs_eq_some_iff.mp hr).2⟩
  | overflow nnn hr hs => exact ⟨hs, nnn, (runs_eq_some_iff.mp hr).2⟩
  | underflow ign hr hs => exact ⟨hs, ign, (runs_eq_some_iff.mp hr).2⟩

theorem pollKeys_wait (s : State) (r : Nibble) :
    (State.pollKeys s r).wait = none ∨ (State.pollKeys s r).wait = s.wait := by
  cases hk : lowestKey s.key with
  | some k => rw [pollKeys_of_some r hk]; exact .inl rfl
  | none => rw [pollKeys_of_none r hk]; exact .inr rfl

/-- A key-wait under way before the tick was so before the step, which then has no output. -/
theorem BeforeTick.of_wait {s t : State} {r : Nibble} (h : BeforeTick s t) (ht : t.wait = some r) :
    s.wait = some r ∧ t.diag = none ∧ t.rp = false := by
  cases h with
  | wait r' hw =>
    obtain hn | hk := pollKeys_wait (State.beginStep s) r'
    · rw [hn] at ht; cases ht
    · exact ⟨hk.symm.trans ht, pollKeys_diag _ r', pollKeys_rp _ r'⟩
  | instr i hi hexec =>
    have hw : t.wait = none := (exec_frame hexec).wait.trans (runs_eq_some_iff.mp hi).1
    rw [hw] at ht; cases ht
  | unrecognised e hw =>
    have ht : s.wait = some r := ht
    rw [hw] at ht; cases ht

/-- The end of a step keeps the invariant, so long as no key-wait ran as a no-op in the mode `wait`. -/
theorem BeforeTick.invIn {mode : KeyWaitMode} {s t : State} (h : BeforeTick s t) (hs : InvIn mode s)
    (hmode : mode = .noop ∨ ∀ x, runs s ≠ some (.ldVxK x)) : InvIn mode (State.endStep t) := by
  obtain ⟨hmem, -, -, -, hwait, -⟩ := hs
  have mem : Memory.wf (State.endStep t).mem = true := h.wf hmem
  have wait (r : Nibble) (ht : (State.endStep t).wait = some r) :
      mode = .wait ∧ (State.endStep t).diag = none ∧ (State.endStep t).rp = false := by
    obtain ⟨hw, diag, rp⟩ := h.of_wait ht
    exact ⟨(hwait r hw).1, diag, rp⟩
  obtain ⟨k, cause, rfl⟩ | ⟨-, diag⟩ := h.diag_cases
  · refine ⟨mem, endStep_st_of_beep, diagOk_of_cause cause, nofun, wait, fun d hd hk => ?_⟩
    rw [endStep_diag, emitDiag_atExec_diag] at hd
    cases hd
    cases hk
    cases cause with
    | unimplemented x hx => exact hmode.resolve_right fun hne => hne x hx
  · have none_of (d : Diag) : (State.endStep t).diag ≠ some d := by
      rw [endStep_diag, diag]; nofun
    exact ⟨mem, endStep_st_of_beep, fun d hd => absurd hd (none_of d), fun _ => diag, wait,
      fun d hd => absurd hd (none_of d)⟩

/-- The beginning of a key-wait: no output but what the tick says. -/
theorem invIn_of_keyWait {s : State} (x : Nibble) (hs : Memory.wf s.mem = true) :
    InvIn .wait (State.endStep { s.atExec with wait := some x }) :=
  ⟨hs, endStep_st_of_beep, nofun, fun _ => rfl, fun _ _ => ⟨rfl, rfl, rfl⟩, nofun⟩

/-! ### Every step, and every state a host can bring about -/

/-- A step in either mode keeps the invariant of that mode. -/
theorem stepIn_invIn {mode : KeyWaitMode} {s : State} (hs : InvIn mode s) :
    ∃ t, stepIn mode s = .next t ∧ InvIn mode t := by
  obtain ⟨t, ht, hstep⟩ := step_eq_endStep s
  cases mode with
  | noop => exact ⟨_, (stepIn_default s).trans hstep, ht.invIn hs (.inl rfl)⟩
  | wait =>
    by_cases hx : ∃ x, runs s = some (.ldVxK x)
    · obtain ⟨x, hr⟩ := hx
      obtain ⟨hw, hd⟩ := runs_eq_some_iff.mp hr
      exact ⟨_, stepIn_of_keyWait .wait hw hd, invIn_of_keyWait x hs.1⟩
    · push Not at hx
      exact ⟨_, (stepIn_of_runs_ne .wait hx).trans hstep, ht.invIn hs (.inr hx)⟩

/-- Settles O21: the step of either mode, and `step` as that of the default mode. -/
theorem everyStepKeepsTheInvariant : Obligations.EveryStepKeepsTheInvariant := by
  unfold Obligations.EveryStepKeepsTheInvariant
  constructor
  · intro s hs
    rw [← stepIn_default]
    exact stepIn_invIn hs
  · intro mode s hs
    exact stepIn_invIn hs

/-- The host's load changes memory alone, and keeps its canonical form. -/
theorem invIn_load {mode : KeyWaitMode} {image : List Byte} {s t : State} (h : State.load image s = .next t)
    (hs : InvIn mode s) : InvIn mode t := by
  obtain ⟨hmem, rest⟩ := hs
  have mem := wf_load h hmem
  unfold State.load at h
  split at h
  · cases h
    exact ⟨mem, rest⟩
  · cases h

/-- Settles O22: by induction over what the host does; the keys are no part of the invariant. -/
theorem everyReachableStateMeetsTheInvariant : Obligations.EveryReachableStateMeetsTheInvariant := by
  unfold Obligations.EveryReachableStateMeetsTheInvariant
  intro mode s h
  induction h with
  | reset font => exact invIn_resetWith mode font
  | load _ _ hload ih => exact invIn_load hload ih
  | setKeys keys _ ih => exact ih
  | step _ hstep ih =>
    obtain ⟨t, ht, inv⟩ := stepIn_invIn ih
    cases hstep.symm.trans ht
    exact inv

end Sys2Proof.Machine
end
